-- ==== Sys2Proof/Word.lean ====
section
/-! DEFINITION. The word types of the machine: data bytes, addresses and instruction words, immediates (rule R5). -/

namespace Sys2Proof

/-- A data byte: every ALU operand and result, every load and store (R5). -/
abbrev Byte := BitVec 8

/-- A 16-bit value: an address, a 16-bit register, the program counter, an instruction word (R5). -/
abbrev Word := BitVec 16

/-- The 6-bit immediate of formats IA, M and C, as it stands in the word (R52). -/
abbrev Imm6 := BitVec 6

end Sys2Proof
end

