-- ==== Sys2Proof/Config.lean ====
section
/-! DEFINITION. What an implementation fixes: the types of the spec's open parameters (rule R6), and the two
free values, constants with no body. The setting this model takes for each parameter stands in
Sys2Proof/Machine/Params.lean. -/

namespace Sys2Proof

/-- INSN_BYTE_ORDER (R6, R34): which of an instruction's two written bytes lies at the lower address. -/
inductive InsnByteOrder where
  | firstLow
  | firstHigh
  deriving DecidableEq, Repr

/-- OP1011 (R6, R86): what ALU operation code 1011 does. -/
inductive Op1011 where
  | refuse
  | nop
  deriving DecidableEq, Repr

/-- SHR_FILL (R6, R85): the bits that `shr` shifts in. -/
inductive ShrFill where
  | zero
  | sign
  deriving DecidableEq, Repr

/-- The orders of SR_DEST_ORDER (R6, R24, D12): which write lands last when an operation with a result and flags
has `sr` as its destination. -/
inductive SrDestOrder where
  | flagsLast
  | resultLast
  deriving DecidableEq, Repr, Inhabited

/-- The settings of SR_DEST_ORDER (R6, R24, D12): `refuse`, or one of the two orders. -/
inductive SrDestSetting where
  | refuse
  | run (order : SrDestOrder)
  deriving DecidableEq, Repr

/-- MEM_REGION_KIND (R6, R37, D20): what stands at an address. -/
inductive RegionKind where
  | ram
  | rom
  | device
  | absent
  deriving DecidableEq, Repr

/-- SIGNED_COND_READING (R6, R96, C6): whether conditions `g` and `ge` follow the printed formula or their name. -/
inductive SignedCondReading where
  | formula
  | name
  deriving DecidableEq, Repr

/-- TSB_N_INDEX (R6, R90, C5): which bit `tsb` copies to flag n. -/
inductive TsbNIndex where
  | op2Field
  | literal
  deriving DecidableEq, Repr

/-- The order in which this implementation writes result and flags into `sr` (R24, R74). A free value: no
proof can see which of the two it is. DESIGN CHOICE, safe, log 6. -/
opaque Config.srDestOrder : SrDestOrder

/-- The content of the memory byte at an address that nothing has written (R29, R30, R31). A free value
for each address. DESIGN CHOICE, safe, log 4. -/
opaque Config.unwrittenByte : Nat → Byte

end Sys2Proof
end

