-- ==== Sys2Proof/Machine/Params.lean ====
section
/-! DEFINITION. The setting this model takes for each open parameter of the spec (rule R6), one definition each.
Each is the spec's default where the default lets the instruction run; where the default is to refuse
(OP1011, SR_DEST_ORDER) the setting under which the instruction runs is taken. -/

namespace Sys2Proof

/-- INSN_BYTE_ORDER = first_low (R34, D3). DESIGN CHOICE (the spec's default), unsafe, log 1. -/
def Params.insnByteOrder : InsnByteOrder := .firstLow

/-- RESET_PC, for which the spec gives no default (R128, D16). DESIGN CHOICE, unsafe, log 2. -/
def Params.resetPc : Word := 0x0000#16

/-- OP1011 = nop (R62, R86, D7). DESIGN CHOICE, unsafe, log 5. -/
def Params.op1011 : Op1011 := .nop

/-- SHR_FILL = zero (R85, D8). DESIGN CHOICE (the spec's default), unsafe, log 7. -/
def Params.shrFill : ShrFill := .zero

/-- SR_DEST_ORDER: the instruction runs, its order left free (R24, R74, D12). DESIGN CHOICE, safe, log 6. -/
def Params.srDest : SrDestSetting := .run Config.srDestOrder

/-- LINK_WHEN_NOT_TAKEN = false (R95, D13). DESIGN CHOICE (the spec's default), unsafe, log 8. -/
def Params.linkWhenNotTaken : Bool := false

/-- MEM_REGION_KIND: all 65,536 bytes are RAM (R37, R41, D20). DESIGN CHOICE (the spec's default), unsafe, log 9. -/
def Params.memRegionKind (_ : Word) : RegionKind := .ram

/-- SIGNED_COND_READING = formula (R96, C6, D31). DESIGN CHOICE (the spec's default), unsafe, log 10. -/
def Params.signedCondReading : SignedCondReading := .formula

/-- TSB_N_INDEX = op2[5:3] (R90, C5, D32). DESIGN CHOICE (the spec's default), unsafe, log 11. -/
def Params.tsbNIndex : TsbNIndex := .op2Field

end Sys2Proof
end

