-- ==== Sys2Proof/Syntax.lean ====
section
/-! DEFINITION. The syntax of the instruction set: register names, addressing modes, conditions, and `Instr`, one
constructor per row of spec/opcode_table.json. -/

namespace Sys2Proof

/-- The sixteen byte registers of the Data (D) addressing mode (R16). -/
inductive DReg where
  | raL | raH | sr | sp | fp | gb | gc | gd
  | geL | geH | gfL | gfH | ggL | ggH | ghL | ghH
  deriving DecidableEq, Repr

/-- The four 16-bit registers that codes 100 to 111 of the M and C addressing modes name (R55, R56). -/
inductive WReg where
  | ge | gf | gg | gh
  deriving DecidableEq, Repr

/-- The eight bases of the Memory (M) addressing mode (R55). -/
inductive MBase where
  | sp | fp | pc | gb
  | reg (r : WReg)
  deriving DecidableEq, Repr

/-- The eight bases of the Control (C) addressing mode (R56). -/
inductive CBase where
  | bl | bh | pc | ra
  | reg (r : WReg)
  deriving DecidableEq, Repr

/-- The eight condition codes (R57); `always` is code 111, which has no mnemonic. -/
inductive Cond where
  | c | v | n | z | g | ge | gu | always
  deriving DecidableEq, Repr

/-- One constructor per row of spec/opcode_table.json. In formats A (`…R`) and IA (`…I`), `x` is the first operand
and destination, `y` or `imm` the second (R48, R49). In format M, `x` is the data register (R50). In
format C, `neg` is the negate bit and `cc` the condition (R51). -/
inductive Instr where
  | addR (x y : DReg)
  | addI (x : DReg) (imm : Imm6)
  | adcR (x y : DReg)
  | adcI (x : DReg) (imm : Imm6)
  | subR (x y : DReg)
  | subI (x : DReg) (imm : Imm6)
  | sbcR (x y : DReg)
  | sbcI (x : DReg) (imm : Imm6)
  | cmpR (x y : DReg)
  | cmpI (x : DReg) (imm : Imm6)
  | cmcR (x y : DReg)
  | cmcI (x : DReg) (imm : Imm6)
  | andR (x y : DReg)
  | andI (x : DReg) (imm : Imm6)
  | orR (x y : DReg)
  | orI (x : DReg) (imm : Imm6)
  | xorR (x y : DReg)
  | xorI (x : DReg) (imm : Imm6)
  | shlR (x y : DReg)
  | shlI (x : DReg) (imm : Imm6)
  | shrR (x y : DReg)
  | shrI (x : DReg) (imm : Imm6)
  | res1011R (x y : DReg)
  | res1011I (x : DReg) (imm : Imm6)
  | movR (x y : DReg)
  | movI (x : DReg) (imm : Imm6)
  | mvhR (x y : DReg)
  | mvhI (x : DReg) (imm : Imm6)
  | tsbR (x y : DReg)
  | tsbI (x : DReg) (imm : Imm6)
  | sebR (x y : DReg)
  | sebI (x : DReg) (imm : Imm6)
  | nop
  | ld (base : MBase) (x : DReg) (imm : Imm6)
  | ldr (x : DReg) (imm : Imm6)
  | lds (x : DReg) (imm : Imm6)
  | ldf (x : DReg) (imm : Imm6)
  | st (base : MBase) (x : DReg) (imm : Imm6)
  | sts (x : DReg) (imm : Imm6)
  | stf (x : DReg) (imm : Imm6)
  | jmp (r : WReg) (neg : Bool) (cc : Cond) (imm : Imm6)
  | jmpr (neg : Bool) (cc : Cond) (imm : Imm6)
  | jmpbl (neg : Bool) (cc : Cond) (imm : Imm6)
  | jmpbh (neg : Bool) (cc : Cond) (imm : Imm6)
  | call (r : WReg) (neg : Bool) (cc : Cond) (imm : Imm6)
  | callr (neg : Bool) (cc : Cond) (imm : Imm6)
  | clbl (neg : Bool) (cc : Cond) (imm : Imm6)
  | clbh (neg : Bool) (cc : Cond) (imm : Imm6)
  | ret (neg : Bool) (cc : Cond) (imm : Imm6)
  | clret (neg : Bool) (cc : Cond) (imm : Imm6)
  deriving DecidableEq, Repr

end Sys2Proof
end

