-- ==== Sys2Proof/WellFormed.lean ====
section
/-! DEFINITION. Which terms of `Instr` are the decoder's own reading of their word. Every field already has
exactly the values its bits have (R65), so the only checks left are about the named forms of rule R69: where a named
form has a word, the general term with that word is not well-formed (log 23). -/

namespace Sys2Proof

/-- `ld` with base `sp`, `fp` or `pc` has the words of `lds`, `ldf`, `ldr` (R69). -/
def ldBaseUnnamed : MBase → Bool
  | .sp | .fp | .pc => false
  | .gb | .reg _ => true

/-- `st` with base `sp` or `fp` has the words of `sts`, `stf`; the store through `pc` has no name of its own (R69). -/
def stBaseUnnamed : MBase → Bool
  | .sp | .fp => false
  | .pc | .gb | .reg _ => true

/-- `mov gb, gb` has the word of `nop` (R92). -/
def movUnnamed (x y : DReg) : Bool := !(x == .gb && y == .gb)

/-- The well-formed terms: those the decoder answers. -/
def Instr.wellFormed : Instr → Bool
  | .movR x y => movUnnamed x y
  | .ld base _ _ => ldBaseUnnamed base
  | .st base _ _ => stBaseUnnamed base
  | .addR _ _ | .addI _ _ | .adcR _ _ | .adcI _ _ | .subR _ _ | .subI _ _ | .sbcR _ _ | .sbcI _ _
  | .cmpR _ _ | .cmpI _ _ | .cmcR _ _ | .cmcI _ _ | .andR _ _ | .andI _ _ | .orR _ _ | .orI _ _
  | .xorR _ _ | .xorI _ _ | .shlR _ _ | .shlI _ _ | .shrR _ _ | .shrI _ _
  | .res1011R _ _ | .res1011I _ _ | .movI _ _ | .mvhR _ _ | .mvhI _ _ | .tsbR _ _ | .tsbI _ _
  | .sebR _ _ | .sebI _ _ | .nop | .ldr _ _ | .lds _ _ | .ldf _ _ | .sts _ _ | .stf _ _
  | .jmp _ _ _ _ | .jmpr _ _ _ | .jmpbl _ _ _ | .jmpbh _ _ _ | .call _ _ _ _ | .callr _ _ _
  | .clbl _ _ _ | .clbh _ _ _ | .ret _ _ _ | .clret _ _ _ => true

end Sys2Proof
end

