-- ==== Sys2Proof/Decode.lean ====
section
/-! DEFINITION. The decoder, total on any bytes, and after it the encoder, both written from the bit pictures of
spec/30_encoding.md (rules R46 to R63). -/

namespace Sys2Proof

/-! ## Fields of the instruction word (R7, R47 to R52) -/

/-- `w[15:14]`, the format (R47). -/
def fieldFormat (w : Word) : BitVec 2 := w.extractLsb' 14 2

/-- `w[13:10]`, the ALU operation of formats A and IA (R48, R49). -/
def fieldOp (w : Word) : BitVec 4 := w.extractLsb' 10 4

/-- `w[13]`, the store or save bit of formats M and C (R50, R51). -/
def fieldS (w : Word) : Bool := w.getLsbD 13

/-- `w[12:10]`, the addressing mode of formats M and C (R50, R51). -/
def fieldM (w : Word) : BitVec 3 := w.extractLsb' 10 3

/-- `w[7:4]`, the D-mode code of `x` (R48 to R50). -/
def fieldX (w : Word) : BitVec 4 := w.extractLsb' 4 4

/-- `w[3:0]`, the D-mode code of `y` (R48). -/
def fieldY (w : Word) : BitVec 4 := w.extractLsb' 0 4

/-- `w[7]`, the negate bit of format C (R51). -/
def fieldNeg (w : Word) : Bool := w.getLsbD 7

/-- `w[6:4]`, the condition code of format C (R51). -/
def fieldCc (w : Word) : BitVec 3 := w.extractLsb' 4 3

/-- `w[9:8] : w[3:0]`, the immediate of formats IA, M and C (R52). DEDUCED, log 25. -/
def fieldImm (w : Word) : Imm6 := w.extractLsb' 8 2 ++ w.extractLsb' 0 4

/-! ## Code tables -/

/-- The D-mode table, read by code (R16, R54); the last row is code 15. -/
def DReg.ofCode (k : BitVec 4) : DReg :=
  match k.toNat with
  | 0 => .raL | 1 => .raH | 2 => .sr | 3 => .sp | 4 => .fp | 5 => .gb | 6 => .gc | 7 => .gd
  | 8 => .geL | 9 => .geH | 10 => .gfL | 11 => .gfH | 12 => .ggL | 13 => .ggH | 14 => .ghL
  | _ => .ghH

/-- The D-mode table, read by register (R16). -/
def DReg.code : DReg → BitVec 4
  | .raL => 0b0000#4 | .raH => 0b0001#4 | .sr => 0b0010#4 | .sp => 0b0011#4
  | .fp => 0b0100#4 | .gb => 0b0101#4 | .gc => 0b0110#4 | .gd => 0b0111#4
  | .geL => 0b1000#4 | .geH => 0b1001#4 | .gfL => 0b1010#4 | .gfH => 0b1011#4
  | .ggL => 0b1100#4 | .ggH => 0b1101#4 | .ghL => 0b1110#4 | .ghH => 0b1111#4

/-- The M-mode table, read by code (R55); the last row is code 7. -/
def MBase.ofCode (m : BitVec 3) : MBase :=
  match m.toNat with
  | 0 => .sp | 1 => .fp | 2 => .pc | 3 => .gb | 4 => .reg .ge | 5 => .reg .gf | 6 => .reg .gg
  | _ => .reg .gh

/-- The M-mode table, read by base (R55). -/
def MBase.code : MBase → BitVec 3
  | .sp => 0b000#3 | .fp => 0b001#3 | .pc => 0b010#3 | .gb => 0b011#3
  | .reg .ge => 0b100#3 | .reg .gf => 0b101#3 | .reg .gg => 0b110#3 | .reg .gh => 0b111#3

/-- The C-mode table, read by code (R56); the last row is code 7. -/
def CBase.ofCode (m : BitVec 3) : CBase :=
  match m.toNat with
  | 0 => .bl | 1 => .bh | 2 => .pc | 3 => .ra | 4 => .reg .ge | 5 => .reg .gf | 6 => .reg .gg
  | _ => .reg .gh

/-- The C-mode table, read by base (R56). -/
def CBase.code : CBase → BitVec 3
  | .bl => 0b000#3 | .bh => 0b001#3 | .pc => 0b010#3 | .ra => 0b011#3
  | .reg .ge => 0b100#3 | .reg .gf => 0b101#3 | .reg .gg => 0b110#3 | .reg .gh => 0b111#3

/-- The condition table, read by code (R57); the last row is code 7. -/
def Cond.ofCode (c : BitVec 3) : Cond :=
  match c.toNat with
  | 0 => .c | 1 => .v | 2 => .n | 3 => .z | 4 => .g | 5 => .ge | 6 => .gu
  | _ => .always

/-- The condition table, read by condition (R57). -/
def Cond.code : Cond → BitVec 3
  | .c => 0b000#3 | .v => 0b001#3 | .n => 0b010#3 | .z => 0b011#3
  | .g => 0b100#3 | .ge => 0b101#3 | .gu => 0b110#3 | .always => 0b111#3

/-! ## The decoder (R59) -/

/-- Format A by operation code (R58, R59). `w[9:8]` is not looked at (R63, D6; log 14), so all four words of
`mov gb, gb` are `nop` (R92). The last row is code 15. -/
def decodeA (o : BitVec 4) (x y : DReg) : Instr :=
  match o.toNat with
  | 0 => .addR x y | 1 => .adcR x y | 2 => .subR x y | 3 => .sbcR x y
  | 4 => .cmpR x y | 5 => .cmcR x y | 6 => .andR x y | 7 => .orR x y
  | 8 => .xorR x y | 9 => .shlR x y | 10 => .shrR x y | 11 => .res1011R x y
  | 12 => if movUnnamed x y then .movR x y else .nop
  | 13 => .mvhR x y | 14 => .tsbR x y
  | _ => .sebR x y

/-- Format IA by operation code (R58, R59); all six immediate bits are kept (R61, D29; log 19). The last row is
code 15. -/
def decodeIA (o : BitVec 4) (x : DReg) (imm : Imm6) : Instr :=
  match o.toNat with
  | 0 => .addI x imm | 1 => .adcI x imm | 2 => .subI x imm | 3 => .sbcI x imm
  | 4 => .cmpI x imm | 5 => .cmcI x imm | 6 => .andI x imm | 7 => .orI x imm
  | 8 => .xorI x imm | 9 => .shlI x imm | 10 => .shrI x imm | 11 => .res1011I x imm
  | 12 => .movI x imm | 13 => .mvhI x imm | 14 => .tsbI x imm
  | _ => .sebI x imm

/-- Loads by base (R59, R69): the named form where there is one. -/
def decodeLoad (base : MBase) (x : DReg) (imm : Imm6) : Instr :=
  match base with
  | .sp => .lds x imm
  | .fp => .ldf x imm
  | .pc => .ldr x imm
  | .gb => .ld .gb x imm
  | .reg r => .ld (.reg r) x imm

/-- Stores by base (R59, R69): the named form where there is one. -/
def decodeStore (base : MBase) (x : DReg) (imm : Imm6) : Instr :=
  match base with
  | .sp => .sts x imm
  | .fp => .stf x imm
  | .pc => .st .pc x imm
  | .gb => .st .gb x imm
  | .reg r => .st (.reg r) x imm

/-- Jumps by base (R59). -/
def decodeJump (base : CBase) (neg : Bool) (cc : Cond) (imm : Imm6) : Instr :=
  match base with
  | .bl => .jmpbl neg cc imm
  | .bh => .jmpbh neg cc imm
  | .pc => .jmpr neg cc imm
  | .ra => .ret neg cc imm
  | .reg r => .jmp r neg cc imm

/-- Calls by base (R59). -/
def decodeCall (base : CBase) (neg : Bool) (cc : Cond) (imm : Imm6) : Instr :=
  match base with
  | .bl => .clbl neg cc imm
  | .bh => .clbh neg cc imm
  | .pc => .callr neg cc imm
  | .ra => .clret neg cc imm
  | .reg r => .call r neg cc imm

/-- Every 16-bit word is an instruction (R59, R65); the reserved verdict of code 1011 is the constructors
`res1011R` and `res1011I` (R62). -/
def decodeWord (w : Word) : Instr :=
  match (fieldFormat w).toNat with
  | 0 => decodeA (fieldOp w) (DReg.ofCode (fieldX w)) (DReg.ofCode (fieldY w))
  | 1 => decodeIA (fieldOp w) (DReg.ofCode (fieldX w)) (fieldImm w)
  | 2 =>
    match fieldS w with
    | false => decodeLoad (MBase.ofCode (fieldM w)) (DReg.ofCode (fieldX w)) (fieldImm w)
    | true => decodeStore (MBase.ofCode (fieldM w)) (DReg.ofCode (fieldX w)) (fieldImm w)
  | _ =>
    match fieldS w with
    | false => decodeJump (CBase.ofCode (fieldM w)) (fieldNeg w) (Cond.ofCode (fieldCc w)) (fieldImm w)
    | true => decodeCall (CBase.ofCode (fieldM w)) (fieldNeg w) (Cond.ofCode (fieldCc w)) (fieldImm w)

/-! ## Bytes in memory order (R34) -/

/-- The word whose two bytes, in ascending address order, are `b0` and `b1` (R34). -/
def wordOfBytes (order : InsnByteOrder) (b0 b1 : Byte) : Word :=
  match order with
  | .firstLow => b0 ++ b1
  | .firstHigh => b1 ++ b0

/-- The byte of an instruction word at the lower address (R34). -/
def lowAddressByte (order : InsnByteOrder) (w : Word) : Byte :=
  match order with
  | .firstLow => w.extractLsb' 8 8
  | .firstHigh => w.extractLsb' 0 8

/-- The byte of an instruction word at the higher address (R34). -/
def highAddressByte (order : InsnByteOrder) (w : Word) : Byte :=
  match order with
  | .firstLow => w.extractLsb' 0 8
  | .firstHigh => w.extractLsb' 8 8

/-- Why bytes are no instruction: the only way is that fewer than two are there (R46, R65). -/
inductive DecodeError where
  | truncated
  deriving DecidableEq, Repr

/-- The instruction that starts a byte sequence in ascending address order, and the bytes after it (R34, R46). -/
def decodeBytes : List Byte → Except DecodeError (Instr × List Byte)
  | b0 :: b1 :: rest => .ok (decodeWord (wordOfBytes Params.insnByteOrder b0 b1), rest)
  | [_] => .error .truncated
  | [] => .error .truncated

/-- The bytes of an instruction word in ascending address order (R34). -/
def bytesOfWord (w : Word) : List Byte :=
  [lowAddressByte Params.insnByteOrder w, highAddressByte Params.insnByteOrder w]

/-- The instruction word that an opcode-table row of `nbits` bits with value `w` stands for: the bits above
`nbits` are zero. -/
def tableWord (nbits w : Nat) : Word := BitVec.ofNat 16 (w % 2 ^ nbits)

/-- The instruction the decoder reads from a table word, laid out as the hardware stores it. -/
def decodeTableWord (nbits w : Nat) : Option Instr :=
  match decodeBytes (bytesOfWord (tableWord nbits w)) with
  | .ok (i, _) => some i
  | .error _ => none

/-! ## The encoder -/

/-- `00oooo.. xxxxyyyy` with `u` in the two bits drawn `..` (R48, R63). -/
def pictureA (o : BitVec 4) (u : BitVec 2) (x y : DReg) : Word := 0b00#2 ++ o ++ u ++ x.code ++ y.code

/-- `00oooo00 xxxxyyyy`, the word an assembler writes (R48, R63). -/
def wordA (o : BitVec 4) (x y : DReg) : Word := pictureA o 0b00#2 x y

/-- `01ooooii xxxxiiii` (R49, R52). -/
def wordIA (o : BitVec 4) (x : DReg) (imm : Imm6) : Word :=
  0b01#2 ++ o ++ imm.extractLsb' 4 2 ++ x.code ++ imm.extractLsb' 0 4

/-- `10smmmii xxxxiiii` (R50, R52). -/
def wordM (s : Bool) (base : MBase) (x : DReg) (imm : Imm6) : Word :=
  0b10#2 ++ BitVec.ofBool s ++ base.code ++ imm.extractLsb' 4 2 ++ x.code ++ imm.extractLsb' 0 4

/-- `11smmmii nccciiii` (R51, R52). -/
def wordC (s : Bool) (base : CBase) (neg : Bool) (cc : Cond) (imm : Imm6) : Word :=
  0b11#2 ++ BitVec.ofBool s ++ base.code ++ imm.extractLsb' 4 2 ++ BitVec.ofBool neg ++ cc.code
    ++ imm.extractLsb' 0 4

/-- The word of an instruction (R58, R60). -/
def encode : Instr → Word
  | .addR x y => wordA 0b0000#4 x y
  | .addI x imm => wordIA 0b0000#4 x imm
  | .adcR x y => wordA 0b0001#4 x y
  | .adcI x imm => wordIA 0b0001#4 x imm
  | .subR x y => wordA 0b0010#4 x y
  | .subI x imm => wordIA 0b0010#4 x imm
  | .sbcR x y => wordA 0b0011#4 x y
  | .sbcI x imm => wordIA 0b0011#4 x imm
  | .cmpR x y => wordA 0b0100#4 x y
  | .cmpI x imm => wordIA 0b0100#4 x imm
  | .cmcR x y => wordA 0b0101#4 x y
  | .cmcI x imm => wordIA 0b0101#4 x imm
  | .andR x y => wordA 0b0110#4 x y
  | .andI x imm => wordIA 0b0110#4 x imm
  | .orR x y => wordA 0b0111#4 x y
  | .orI x imm => wordIA 0b0111#4 x imm
  | .xorR x y => wordA 0b1000#4 x y
  | .xorI x imm => wordIA 0b1000#4 x imm
  | .shlR x y => wordA 0b1001#4 x y
  | .shlI x imm => wordIA 0b1001#4 x imm
  | .shrR x y => wordA 0b1010#4 x y
  | .shrI x imm => wordIA 0b1010#4 x imm
  | .res1011R x y => wordA 0b1011#4 x y
  | .res1011I x imm => wordIA 0b1011#4 x imm
  | .movR x y => wordA 0b1100#4 x y
  | .movI x imm => wordIA 0b1100#4 x imm
  | .mvhR x y => wordA 0b1101#4 x y
  | .mvhI x imm => wordIA 0b1101#4 x imm
  | .tsbR x y => wordA 0b1110#4 x y
  | .tsbI x imm => wordIA 0b1110#4 x imm
  | .sebR x y => wordA 0b1111#4 x y
  | .sebI x imm => wordIA 0b1111#4 x imm
  | .nop => 0b0011000001010101#16
  | .ld base x imm => wordM false base x imm
  | .ldr x imm => wordM false .pc x imm
  | .lds x imm => wordM false .sp x imm
  | .ldf x imm => wordM false .fp x imm
  | .st base x imm => wordM true base x imm
  | .sts x imm => wordM true .sp x imm
  | .stf x imm => wordM true .fp x imm
  | .jmp r neg cc imm => wordC false (.reg r) neg cc imm
  | .jmpr neg cc imm => wordC false .pc neg cc imm
  | .jmpbl neg cc imm => wordC false .bl neg cc imm
  | .jmpbh neg cc imm => wordC false .bh neg cc imm
  | .call r neg cc imm => wordC true (.reg r) neg cc imm
  | .callr neg cc imm => wordC true .pc neg cc imm
  | .clbl neg cc imm => wordC true .bl neg cc imm
  | .clbh neg cc imm => wordC true .bh neg cc imm
  | .ret neg cc imm => wordC false .ra neg cc imm
  | .clret neg cc imm => wordC true .ra neg cc imm

/-- The bytes of an instruction in ascending address order (R34). -/
def encodeBytes (i : Instr) : List Byte := bytesOfWord (encode i)

end Sys2Proof
end

