-- ==== Sys2Proof/Machine/State.lean ====
section
/-! DEFINITION. The machine's state as plain data, its reset value, and the two closed types of reasons a step can
stop. State holds exactly what rules R13, R18 and R26 give the machine; R28 says there is no more. -/

namespace Sys2Proof.Machine

/-- Memory (R26): the bytes that something has written, as (address, byte) pairs, addresses strictly rising and
below 65,536. An unlisted address holds no written byte (log 4). -/
abbrev Memory := List Host.Cell

/-- The whole architectural state (R13, R18, R26, R28). -/
structure State where
  /-- return address (R13) -/
  ra : Word
  /-- status register, `....cvnz` (R21) -/
  sr : Byte
  /-- stack pointer (R13) -/
  sp : Byte
  /-- frame pointer, also named `ga` (R14) -/
  fp : Byte
  /-- general purpose b (R13) -/
  gb : Byte
  /-- general purpose c (R13) -/
  gc : Byte
  /-- general purpose d (R13) -/
  gd : Byte
  /-- general purpose e (R13) -/
  ge : Word
  /-- general purpose f (R13) -/
  gf : Word
  /-- general purpose g (R13) -/
  gg : Word
  /-- general purpose h (R13) -/
  gh : Word
  /-- program counter (R18) -/
  pc : Word
  /-- memory (R26) -/
  mem : Memory
  deriving DecidableEq, Repr

/-- Faults: the hardware raises no exception of any kind (R119, R120), so there is no reason to name, and no step
ends in one. -/
inductive Fault where
  deriving DecidableEq, Repr

/-- The model-level refusals (R121). -/
inductive Refusal where
  /-- An instruction with no meaning yet. Raised by no arm of this model. Safe. -/
  | notModelled (mnemonic : String)
  /-- ALU code 1011 under OP1011 = refuse (R86). Raised by `reserved1011`; not under this model's setting. Safe. -/
  | reservedAluOp1011
  /-- An operation with a result and flags whose destination is `sr`, under SR_DEST_ORDER = refuse (R24, R74, R121).
  Raised by `statusUnder`; not under this model's setting. Safe. -/
  | srDestination
  /-- A store to a ROM address under a non-default MEM_REGION_KIND (D20). Raised by `storeUnder`; not under this
  model's setting. Safe. -/
  | romWrite (a : Word)
  /-- An access to a device address under a non-default MEM_REGION_KIND (D20). Raised by `loadUnder` and
  `storeUnder`; not under this model's setting. Safe. -/
  | deviceAccess (a : Word)
  /-- An access to an absent address under a non-default MEM_REGION_KIND (D20). Raised by `loadUnder` and
  `storeUnder`; not under this model's setting. Safe. -/
  | absentAccess (a : Word)
  /-- A launch with an odd RESET_PC (D23). Raised by `launch`, never by `step`. Safe. -/
  | oddResetPc (pc : Word)
  deriving DecidableEq, Repr

/-- The outcome of an instruction or a step. -/
abbrev Result := Host.Outcome State Fault Refusal

/-- The machine right after reset (R29, R128). The spec gives no value for any of it: `pc` is the parameter
RESET_PC (log 2), every register is zero (DESIGN CHOICE, unsafe, log 3), and no memory byte has been
written (log 4). -/
def State.reset : State where
  ra := 0x0000#16
  sr := 0x00#8
  sp := 0x00#8
  fp := 0x00#8
  gb := 0x00#8
  gc := 0x00#8
  gd := 0x00#8
  ge := 0x0000#16
  gf := 0x0000#16
  gg := 0x0000#16
  gh := 0x0000#16
  pc := Params.resetPc
  mem := []

end Sys2Proof.Machine
end

