-- ==== Sys2Proof/Machine/Ops.lean ====
section
/-! DEFINITION. The named operations over registers and memory (rules R8, R15, R16, R31, R32, R34). The hardware takes no
exception and returns from none (R119, R123, R127), so there is no such operation here. -/

namespace Sys2Proof.Machine

/-! ## Memory as data -/

/-- The byte written at an address, if any has been. -/
def Memory.read (m : Memory) (a : Nat) : Option Byte :=
  match m with
  | [] => none
  | (k, b) :: rest => if k = a then some b else Memory.read rest a

/-- The memory with byte `v` at address `a` and every other address as before; rising order is kept. -/
def Memory.write (m : Memory) (a : Nat) (v : Byte) : Memory :=
  match m with
  | [] => [(a, v)]
  | (k, b) :: rest =>
    if a < k then (a, v) :: (k, b) :: rest
    else if a = k then (a, v) :: rest
    else (k, b) :: Memory.write rest a v

/-- Addresses strictly rise from `lo` on and stay below 65,536. -/
def Memory.wfFrom (lo : Nat) (m : Memory) : Bool :=
  match m with
  | [] => true
  | (k, _) :: rest => decide (lo ≤ k) && decide (k < 65536) && Memory.wfFrom (k + 1) rest

/-- The canonical form: addresses strictly rising, all in the address space (R26). An unlisted address reads as
"not written", which no entry is. -/
def Memory.wf (m : Memory) : Bool := Memory.wfFrom 0 m

/-! ## Register bytes (R15, R16) -/

/-- `r.l = r[7:0]` (R15). -/
def loByte (r : Word) : Byte := r.extractLsb' 0 8

/-- `r.h = r[15:8]` (R15). -/
def hiByte (r : Word) : Byte := r.extractLsb' 8 8

/-- Write of `r.l`; the other half is unchanged (R15). -/
def setLoByte (r : Word) (v : Byte) : Word := hiByte r ++ v

/-- Write of `r.h`; the other half is unchanged (R15). -/
def setHiByte (r : Word) (v : Byte) : Word := v ++ loByte r

/-- `D[k]` (R16). -/
def State.readD (s : State) (k : DReg) : Byte :=
  match k with
  | .raL => loByte s.ra
  | .raH => hiByte s.ra
  | .sr => s.sr
  | .sp => s.sp
  | .fp => s.fp
  | .gb => s.gb
  | .gc => s.gc
  | .gd => s.gd
  | .geL => loByte s.ge
  | .geH => hiByte s.ge
  | .gfL => loByte s.gf
  | .gfH => hiByte s.gf
  | .ggL => loByte s.gg
  | .ggH => hiByte s.gg
  | .ghL => loByte s.gh
  | .ghH => hiByte s.gh

/-- `D[k] <- v` (R16). -/
def State.writeD (s : State) (k : DReg) (v : Byte) : State :=
  match k with
  | .raL => { s with ra := setLoByte s.ra v }
  | .raH => { s with ra := setHiByte s.ra v }
  | .sr => { s with sr := v }
  | .sp => { s with sp := v }
  | .fp => { s with fp := v }
  | .gb => { s with gb := v }
  | .gc => { s with gc := v }
  | .gd => { s with gd := v }
  | .geL => { s with ge := setLoByte s.ge v }
  | .geH => { s with ge := setHiByte s.ge v }
  | .gfL => { s with gf := setLoByte s.gf v }
  | .gfH => { s with gf := setHiByte s.gf v }
  | .ggL => { s with gg := setLoByte s.gg v }
  | .ggH => { s with gg := setHiByte s.gg v }
  | .ghL => { s with gh := setLoByte s.gh v }
  | .ghH => { s with gh := setHiByte s.gh v }

/-- The 16-bit registers that the M and C addressing modes name (R55, R56). -/
def State.readW (s : State) (r : WReg) : Word :=
  match r with
  | .ge => s.ge
  | .gf => s.gf
  | .gg => s.gg
  | .gh => s.gh

/-- `pc <- t` (R8). -/
def State.setPc (s : State) (t : Word) : State := { s with pc := t }

/-- `ra <- t`, both bytes (R95). -/
def State.setRa (s : State) (t : Word) : State := { s with ra := t }

/-- Replacement of the whole status register. -/
def State.setSr (s : State) (v : Byte) : State := { s with sr := v }

/-- Replacement of memory. -/
def State.setMem (s : State) (m : Memory) : State := { s with mem := m }

/-! ## Memory accesses (R31, R32) -/

/-- The content of the byte at an address: the byte last written there, else the initial content, which
is unspecified: a free value (R31; log 4). -/
def State.readByte (s : State) (a : Word) : Byte :=
  (Memory.read s.mem a.toNat).getD (Config.unwrittenByte a.toNat)

/-- The state with byte `v` at address `a` (R32). -/
def State.writeByte (s : State) (a : Word) (v : Byte) : State :=
  s.setMem (Memory.write s.mem a.toNat v)

/-- `MemRead(a, 1)` over a map of region kinds (R31, D20). -/
def loadUnder (kind : Word → RegionKind) (s : State) (a : Word) : Except Refusal Byte :=
  match kind a with
  | .ram => .ok (s.readByte a)
  | .rom => .ok (s.readByte a)
  | .device => .error (.deviceAccess a)
  | .absent => .error (.absentAccess a)

/-- `MemWrite(a, 1, v)` over a map of region kinds (R32, D20). -/
def storeUnder (kind : Word → RegionKind) (s : State) (a : Word) (v : Byte) : Except Refusal State :=
  match kind a with
  | .ram => .ok (s.writeByte a v)
  | .rom => .error (.romWrite a)
  | .device => .error (.deviceAccess a)
  | .absent => .error (.absentAccess a)

/-- `MemRead(a, 1)` (R31). -/
def State.load (s : State) (a : Word) : Except Refusal Byte := loadUnder Params.memRegionKind s a

/-- `MemWrite(a, 1, v)` (R32). -/
def State.store (s : State) (a : Word) (v : Byte) : Except Refusal State :=
  storeUnder Params.memRegionKind s a v

/-! ## Instruction fetch (R34) -/

/-- `Fetch16(a)`: the bytes at `a` and `a + 1` (mod 65,536), put together in the instruction byte order (R34). -/
def State.fetch (s : State) (a : Word) : Except Refusal Word :=
  match s.load a with
  | .error r => .error r
  | .ok b0 =>
    match s.load (a + 1#16) with
    | .error r => .error r
    | .ok b1 => .ok (wordOfBytes Params.insnByteOrder b0 b1)

/-- The address of the next instruction, `(a + 2) mod 65536` (R19, D4; log 12). -/
def nextPc (a : Word) : Word := a + 2#16

/-- The state with an instruction word placed at an address, as fetch reads it (R34, R137). -/
def State.placeWord (s : State) (a w : Word) : State :=
  (s.writeByte a (lowAddressByte Params.insnByteOrder w)).writeByte (a + 1#16)
    (highAddressByte Params.insnByteOrder w)

end Sys2Proof.Machine
end

