-- ==== Sys2Proof/Machine/Operands.lean ====
section
/-! DEFINITION. Operand forms: the immediate's extensions (rule R53), data addresses (R38) and control targets (R39, R94). -/

namespace Sys2Proof.Machine

/-- `sext_8(imm6)`, operand 2 of format IA (R53, R71). -/
def immByte (imm : Imm6) : Byte := imm.signExtend 8

/-- `sext_16(imm6)`, the byte offset of format M (R53). -/
def immOffset (imm : Imm6) : Word := imm.signExtend 16

/-- `2 * sext_16(imm6)`, the displacement of format C (R53). -/
def immDisplacement (imm : Imm6) : Word := immOffset imm <<< 1

/-- `MBase(m)` (R38, R55). `pc` is the address of the next instruction (R19, D15; log 17). -/
def mBaseAddr (base : MBase) (s : State) : Word :=
  match base with
  | .sp => 0x0100#16 + s.sp.zeroExtend 16
  | .fp => 0x0100#16 + s.fp.zeroExtend 16
  | .pc => s.pc
  | .gb => 0x0200#16 + s.gb.zeroExtend 16
  | .reg r => s.readW r

/-- The data address `(MBase(m) + sext_16(imm6)) mod 65536`, not confined to a page (R38, R109, D5; log 13). -/
def dataAddr (base : MBase) (imm : Imm6) (s : State) : Word := mBaseAddr base s + immOffset imm

/-- `CBase(m)` (R39, R56, R94): bit 0 of a register base is dropped. -/
def cBaseAddr (base : CBase) (s : State) : Word :=
  match base with
  | .bl => 0x0040#16
  | .bh => 0x00C0#16
  | .pc => s.pc
  | .ra => s.ra &&& 0xFFFE#16
  | .reg r => s.readW r &&& 0xFFFE#16

/-- The control target `(CBase(m) + 2 * sext_16(imm6)) mod 65536` (R39, R94, D5; log 13). -/
def controlTarget (base : CBase) (imm : Imm6) (s : State) : Word :=
  cBaseAddr base s + immDisplacement imm

end Sys2Proof.Machine
end

