-- ==== Sys2Proof/Machine/Flags.lean ====
section
/-! DEFINITION. The status register's flags (rules R21 to R25), the adder (R72), the conditions (R96), and how an ALU
operation's result and flags reach the state (R70, R74). -/

namespace Sys2Proof.Machine

/-! ## Flags of a status byte `....cvnz` (R21) -/

/-- Flag c of a status byte. -/
def srC (b : Byte) : Bool := b.getLsbD 3
/-- Flag v of a status byte. -/
def srV (b : Byte) : Bool := b.getLsbD 2
/-- Flag n of a status byte. -/
def srN (b : Byte) : Bool := b.getLsbD 1
/-- Flag z of a status byte. -/
def srZ (b : Byte) : Bool := b.getLsbD 0
/-- Bits 7:4 of a status byte, storage with no function (R25, D11; log 15). -/
def srHigh (b : Byte) : BitVec 4 := b.extractLsb' 4 4

/-- What an operation writes of the flags, by its "Flags Affected" entry (R22). -/
inductive FlagWrite where
  | cvnz (c v n z : Bool)
  | nz (n z : Bool)
  deriving DecidableEq, Repr

/-- The status byte after the flag write: the written flags new, every other bit kept (R22, R25). -/
def FlagWrite.apply (f : FlagWrite) (b : Byte) : Byte :=
  match f with
  | .cvnz c v n z =>
    b.extractLsb' 4 4 ++ BitVec.ofBool c ++ BitVec.ofBool v ++ BitVec.ofBool n ++ BitVec.ofBool z
  | .nz n z => b.extractLsb' 2 6 ++ BitVec.ofBool n ++ BitVec.ofBool z

/-- Flags n and z of an 8-bit result (R22, R73, D9; log 16). -/
def nzOf (r : Byte) : FlagWrite := .nz r.msb (r == 0x00#8)

/-! ## The adder (R72) -/

/-- The adder's outputs (R72). -/
structure AdderOut where
  r : Byte
  c : Bool
  v : Bool
  n : Bool
  z : Bool
  deriving DecidableEq, Repr

/-- The three-input addition of R72. `v` is two's-complement overflow (D10; PRESUMED, log 16). -/
def adder (a b : Byte) (cin : Bool) : AdderOut :=
  let t : BitVec 9 := a.zeroExtend 9 + b.zeroExtend 9 + (BitVec.ofBool cin).zeroExtend 9
  let r : Byte := t.extractLsb' 0 8
  { r := r
    c := t.getLsbD 8
    v := a.msb == b.msb && r.msb != a.msb
    n := r.msb
    z := r == 0x00#8 }

/-- The flag write of an adder operation, all four flags (R22). -/
def AdderOut.flags (t : AdderOut) : FlagWrite := .cvnz t.c t.v t.n t.z

/-! ## Outputs of an ALU operation (R70) -/

/-- What an ALU operation gives: a result and flags, a result only (`mov`, `mvh`), or flags only (`cmp`, `cmc`,
`tsb`) (R24, C10). -/
inductive AluOut where
  | both (r : Byte) (f : FlagWrite)
  | result (r : Byte)
  | flags (f : FlagWrite)
  deriving DecidableEq, Repr

/-- The status byte after an operation with result `r` and flags `f` whose destination is `sr`, in either
order (R24, R74, D12). -/
def srDestByte (order : SrDestOrder) (r : Byte) (f : FlagWrite) : Byte :=
  match order with
  | .flagsLast => f.apply r
  | .resultLast => r

/-- A result and flags into `sr` under any setting of SR_DEST_ORDER (R24, R74, R121). -/
def statusUnder (setting : SrDestSetting) (r : Byte) (f : FlagWrite) (s : State) : Result :=
  match setting with
  | .refuse => .refused .srDestination
  | .run order => .next (s.setSr (srDestByte order r f))

/-- Writes an operation's outputs: the result into `x`, then the flags (R70). -/
def State.commit (s : State) (x : DReg) (out : AluOut) : State :=
  match out with
  | .result r => s.writeD x r
  | .flags f => s.setSr (f.apply s.sr)
  | .both r f => (s.writeD x r).setSr (f.apply s.sr)

/-- The end of an ALU operation (R70) under any setting of SR_DEST_ORDER: only a result with flags whose
destination is `sr` depends on it (R24, R74). -/
def commitUnder (setting : SrDestSetting) (x : DReg) (out : AluOut) (s : State) : Result :=
  match out with
  | .result _ => .next (s.commit x out)
  | .flags _ => .next (s.commit x out)
  | .both r f => if x = .sr then statusUnder setting r f s else .next (s.commit x out)

/-- Format A execution (R70): both operands and `sr.c` are read before anything is written. -/
def runR (op : Byte → Byte → Bool → AluOut) (x y : DReg) (s : State) : Result :=
  commitUnder Params.srDest x (op (s.readD x) (s.readD y) (srC s.sr)) s

/-- Format IA execution (R71). -/
def runI (op : Byte → Byte → Bool → AluOut) (x : DReg) (imm : Imm6) (s : State) : Result :=
  commitUnder Params.srDest x (op (s.readD x) (immByte imm) (srC s.sr)) s

/-! ## Conditions (R57, R96) -/

/-- `Cond(cc, sr)` under either reading of `g` and `ge` (R96, C6). -/
def condUnder (reading : SignedCondReading) (cc : Cond) (sr : Byte) : Bool :=
  match cc with
  | .c => srC sr
  | .v => srV sr
  | .n => srN sr
  | .z => srZ sr
  | .g =>
    match reading with
    | .formula => (if srV sr then srC sr else !srN sr) && !srZ sr
    | .name => srN sr == srV sr && !srZ sr
  | .ge =>
    match reading with
    | .formula => if srV sr then srC sr else !srN sr
    | .name => srN sr == srV sr
  | .gu => srC sr && !srZ sr
  | .always => true

/-- `Cond(cc, sr)` (R96, D31; log 10). -/
def condHolds (cc : Cond) (sr : Byte) : Bool := condUnder Params.signedCondReading cc sr

/-- Whether a format-C instruction is taken (R93). -/
def taken (neg : Bool) (cc : Cond) (s : State) : Bool := Bool.xor (condHolds cc s.sr) neg

end Sys2Proof.Machine
end

