-- ==== Sys2Proof/Machine/Alu.lean ====
section
/-! DEFINITION. The ALU operations (spec/40_alu.md) and the meanings of formats A and IA, one definition per row of the
opcode table. -/

namespace Sys2Proof.Machine

/-! ## The operations, on operand 1, operand 2 and flag c -/

/-- `op1 += op2` (R75). -/
def aluAdd (op1 op2 : Byte) (_ : Bool) : AluOut :=
  .both (adder op1 op2 false).r (adder op1 op2 false).flags

/-- `op1 += op2 + c` (R76). -/
def aluAdc (op1 op2 : Byte) (c : Bool) : AluOut :=
  .both (adder op1 op2 c).r (adder op1 op2 c).flags

/-- `op1 += ~op2 + 1` (R77). -/
def aluSub (op1 op2 : Byte) (_ : Bool) : AluOut :=
  .both (adder op1 (~~~op2) true).r (adder op1 (~~~op2) true).flags

/-- `op1 += ~op2 + c` (R78). -/
def aluSbc (op1 op2 : Byte) (c : Bool) : AluOut :=
  .both (adder op1 (~~~op2) c).r (adder op1 (~~~op2) c).flags

/-- `op1 + ~op2 + 1`, result discarded (R79, C10). -/
def aluCmp (op1 op2 : Byte) (_ : Bool) : AluOut := .flags (adder op1 (~~~op2) true).flags

/-- `op1 + ~op2 + c`, result discarded (R80, C10). -/
def aluCmc (op1 op2 : Byte) (c : Bool) : AluOut := .flags (adder op1 (~~~op2) c).flags

/-- `op1 &= op2` (R81). -/
def aluAnd (op1 op2 : Byte) (_ : Bool) : AluOut := .both (op1 &&& op2) (nzOf (op1 &&& op2))

/-- `op1 |= op2` (R82). -/
def aluOr (op1 op2 : Byte) (_ : Bool) : AluOut := .both (op1 ||| op2) (nzOf (op1 ||| op2))

/-- `op1 ^= op2` (R83). -/
def aluXor (op1 op2 : Byte) (_ : Bool) : AluOut := .both (op1 ^^^ op2) (nzOf (op1 ^^^ op2))

/-- `op2[2:0]`, the shift count or bit number (R84, R90, R91). -/
def lowIndex (op2 : Byte) : Nat := (op2.extractLsb' 0 3).toNat

/-- `op2[5:3]`, the second bit number of `tsb` (R90). -/
def highIndex (op2 : Byte) : Nat := (op2.extractLsb' 3 3).toNat

/-- `op1 <<= op2 & 0x07`, zeros enter (R84). -/
def aluShl (op1 op2 : Byte) (_ : Bool) : AluOut :=
  .both (op1 <<< lowIndex op2) (nzOf (op1 <<< lowIndex op2))

/-- A right shift under either fill (R85). -/
def shrUnder (fill : ShrFill) (a : Byte) (k : Nat) : Byte :=
  match fill with
  | .zero => a >>> k
  | .sign => a.sshiftRight k

/-- `op1 >>= op2 & 0x07` (R85, D8; log 7). -/
def aluShr (op1 op2 : Byte) (_ : Bool) : AluOut :=
  .both (shrUnder Params.shrFill op1 (lowIndex op2)) (nzOf (shrUnder Params.shrFill op1 (lowIndex op2)))

/-- `op1 = op2` (R87). -/
def aluMov (_ op2 : Byte) (_ : Bool) : AluOut := .result op2

/-- `op1 = (op1 & 0x3F) | ((op2 << 6) & 0xC0)`, that is `op2[1:0] : op1[5:0]` (R88). -/
def aluMvh (op1 op2 : Byte) (_ : Bool) : AluOut := .result (op2.extractLsb' 0 2 ++ op1.extractLsb' 0 6)

/-- The bit that `tsb` copies to flag n, under either reading of its formula (R90, C5). -/
def tsbN (index : TsbNIndex) (op1 op2 : Byte) : Bool :=
  match index with
  | .op2Field => op1.getLsbD (highIndex op2)
  | .literal => highIndex op2 == 0 && op1.getLsbD 0

/-- `z <- op1[op2[2:0]]`, `n <- op1[op2[5:3]]`, nothing stored (R90, C7, D32; log 11). -/
def aluTsb (op1 op2 : Byte) (_ : Bool) : AluOut :=
  .flags (.nz (tsbN Params.tsbNIndex op1 op2) (op1.getLsbD (lowIndex op2)))

/-- Bit `op2[2:0]` of `op1` becomes `op2[3]` (R91). -/
def bitWritten (op1 op2 : Byte) : Byte :=
  if op2.getLsbD 3 then op1 ||| (0x01#8 <<< lowIndex op2) else op1 &&& ~~~(0x01#8 <<< lowIndex op2)

/-- `if (op2 & 0x08) op1 |= 1 << (op2 & 0x07), else op1 &= ~(1 << (op2 & 0x07))` (R91). -/
def aluSeb (op1 op2 : Byte) (_ : Bool) : AluOut := .both (bitWritten op1 op2) (nzOf (bitWritten op1 op2))

/-- ALU code 1011 under either setting of OP1011 (R86). -/
def reserved1011 (setting : Op1011) (s : State) : Result :=
  match setting with
  | .refuse => .refused .reservedAluOp1011
  | .nop => .next s

/-! ## Meanings, in the order of the opcode table -/

/-- R75, format A. -/
def execAddR (x y : DReg) (s : State) : Result := runR aluAdd x y s
/-- R75, format IA. -/
def execAddI (x : DReg) (imm : Imm6) (s : State) : Result := runI aluAdd x imm s
/-- R76, format A. -/
def execAdcR (x y : DReg) (s : State) : Result := runR aluAdc x y s
/-- R76, format IA. -/
def execAdcI (x : DReg) (imm : Imm6) (s : State) : Result := runI aluAdc x imm s
/-- R77, format A. -/
def execSubR (x y : DReg) (s : State) : Result := runR aluSub x y s
/-- R77, format IA. -/
def execSubI (x : DReg) (imm : Imm6) (s : State) : Result := runI aluSub x imm s
/-- R78, format A. -/
def execSbcR (x y : DReg) (s : State) : Result := runR aluSbc x y s
/-- R78, format IA. -/
def execSbcI (x : DReg) (imm : Imm6) (s : State) : Result := runI aluSbc x imm s
/-- R79, format A. -/
def execCmpR (x y : DReg) (s : State) : Result := runR aluCmp x y s
/-- R79, format IA. -/
def execCmpI (x : DReg) (imm : Imm6) (s : State) : Result := runI aluCmp x imm s
/-- R80, format A. -/
def execCmcR (x y : DReg) (s : State) : Result := runR aluCmc x y s
/-- R80, format IA. -/
def execCmcI (x : DReg) (imm : Imm6) (s : State) : Result := runI aluCmc x imm s
/-- R81, format A. -/
def execAndR (x y : DReg) (s : State) : Result := runR aluAnd x y s
/-- R81, format IA. -/
def execAndI (x : DReg) (imm : Imm6) (s : State) : Result := runI aluAnd x imm s
/-- R82, format A. -/
def execOrR (x y : DReg) (s : State) : Result := runR aluOr x y s
/-- R82, format IA. -/
def execOrI (x : DReg) (imm : Imm6) (s : State) : Result := runI aluOr x imm s
/-- R83, format A. -/
def execXorR (x y : DReg) (s : State) : Result := runR aluXor x y s
/-- R83, format IA. -/
def execXorI (x : DReg) (imm : Imm6) (s : State) : Result := runI aluXor x imm s
/-- R84, format A. -/
def execShlR (x y : DReg) (s : State) : Result := runR aluShl x y s
/-- R84, format IA. -/
def execShlI (x : DReg) (imm : Imm6) (s : State) : Result := runI aluShl x imm s
/-- R85, format A. -/
def execShrR (x y : DReg) (s : State) : Result := runR aluShr x y s
/-- R85, format IA. -/
def execShrI (x : DReg) (imm : Imm6) (s : State) : Result := runI aluShr x imm s
/-- R86, format A: `x` and `y` are not used. -/
def execRes1011R (_ _ : DReg) (s : State) : Result := reserved1011 Params.op1011 s
/-- R86, format IA: `x` and the immediate are not used. -/
def execRes1011I (_ : DReg) (_ : Imm6) (s : State) : Result := reserved1011 Params.op1011 s
/-- R87, format A. -/
def execMovR (x y : DReg) (s : State) : Result := runR aluMov x y s
/-- R87, format IA. -/
def execMovI (x : DReg) (imm : Imm6) (s : State) : Result := runI aluMov x imm s
/-- R88, format A. -/
def execMvhR (x y : DReg) (s : State) : Result := runR aluMvh x y s
/-- R88, format IA. -/
def execMvhI (x : DReg) (imm : Imm6) (s : State) : Result := runI aluMvh x imm s
/-- R90, format A. -/
def execTsbR (x y : DReg) (s : State) : Result := runR aluTsb x y s
/-- R90, format IA. -/
def execTsbI (x : DReg) (imm : Imm6) (s : State) : Result := runI aluTsb x imm s
/-- R91, format A. -/
def execSebR (x y : DReg) (s : State) : Result := runR aluSeb x y s
/-- R91, format IA. -/
def execSebI (x : DReg) (imm : Imm6) (s : State) : Result := runI aluSeb x imm s
/-- `mov gb, gb` (R92). -/
def execNop (s : State) : Result := runR aluMov .gb .gb s

end Sys2Proof.Machine
end

