-- ==== Sys2Proof/Machine/Control.lean ====
section
/-! DEFINITION. Control transfers, format C (spec/41_control.md). -/

namespace Sys2Proof.Machine

/-- The link write `ra <- pc`, where `pc` is the address of the next instruction (R95). -/
def link (save : Bool) (s : State) : State := if save then s.setRa s.pc else s

/-- Format C execution (R93) under either setting of LINK_WHEN_NOT_TAKEN (R95, D13). Condition and target are
read from the state before any write (R97, D14; log 18). -/
def controlUnder (linkWhenNotTaken : Bool) (save : Bool) (base : CBase) (neg : Bool) (cc : Cond)
    (imm : Imm6) (s : State) : Result :=
  if taken neg cc s then .next ((link save s).setPc (controlTarget base imm s))
  else if linkWhenNotTaken then .next (link save s)
  else .next s

/-- Format C execution (R93). -/
def runControl (save : Bool) (base : CBase) (neg : Bool) (cc : Cond) (imm : Imm6) (s : State) : Result :=
  controlUnder Params.linkWhenNotTaken save base neg cc imm s

/-- R98. -/
def execJmp (r : WReg) (neg : Bool) (cc : Cond) (imm : Imm6) (s : State) : Result :=
  runControl false (.reg r) neg cc imm s
/-- R99. -/
def execJmpr (neg : Bool) (cc : Cond) (imm : Imm6) (s : State) : Result :=
  runControl false .pc neg cc imm s
/-- R100. -/
def execJmpbl (neg : Bool) (cc : Cond) (imm : Imm6) (s : State) : Result :=
  runControl false .bl neg cc imm s
/-- R101. -/
def execJmpbh (neg : Bool) (cc : Cond) (imm : Imm6) (s : State) : Result :=
  runControl false .bh neg cc imm s
/-- R102. -/
def execCall (r : WReg) (neg : Bool) (cc : Cond) (imm : Imm6) (s : State) : Result :=
  runControl true (.reg r) neg cc imm s
/-- R103. -/
def execCallr (neg : Bool) (cc : Cond) (imm : Imm6) (s : State) : Result :=
  runControl true .pc neg cc imm s
/-- R104. -/
def execClbl (neg : Bool) (cc : Cond) (imm : Imm6) (s : State) : Result :=
  runControl true .bl neg cc imm s
/-- R105. -/
def execClbh (neg : Bool) (cc : Cond) (imm : Imm6) (s : State) : Result :=
  runControl true .bh neg cc imm s
/-- R106; the immediate counts (D28; log 19). -/
def execRet (neg : Bool) (cc : Cond) (imm : Imm6) (s : State) : Result :=
  runControl false .ra neg cc imm s
/-- R107. -/
def execClret (neg : Bool) (cc : Cond) (imm : Imm6) (s : State) : Result :=
  runControl true .ra neg cc imm s

end Sys2Proof.Machine
end

