-- ==== Sys2Proof/Machine/LoadStore.lean ====
section
/-! DEFINITION. Loads and stores, format M (spec/42_load_store.md). -/

namespace Sys2Proof.Machine

/-- `D[xk] <- MemRead(addr, 1)`, the address from the registers before the write (R109, R110). -/
def runLoad (base : MBase) (x : DReg) (imm : Imm6) (s : State) : Result :=
  match s.load (dataAddr base imm s) with
  | .ok b => .next (s.writeD x b)
  | .error r => .refused r

/-- `MemWrite(addr, 1, D[xk])` (R109, R114). -/
def runStore (base : MBase) (x : DReg) (imm : Imm6) (s : State) : Result :=
  match s.store (dataAddr base imm s) (s.readD x) with
  | .ok t => .next t
  | .error r => .refused r

/-- R110. -/
def execLd (base : MBase) (x : DReg) (imm : Imm6) (s : State) : Result := runLoad base x imm s
/-- R111. -/
def execLdr (x : DReg) (imm : Imm6) (s : State) : Result := runLoad .pc x imm s
/-- R112. -/
def execLds (x : DReg) (imm : Imm6) (s : State) : Result := runLoad .sp x imm s
/-- R113. -/
def execLdf (x : DReg) (imm : Imm6) (s : State) : Result := runLoad .fp x imm s
/-- R114. -/
def execSt (base : MBase) (x : DReg) (imm : Imm6) (s : State) : Result := runStore base x imm s
/-- R115. -/
def execSts (x : DReg) (imm : Imm6) (s : State) : Result := runStore .sp x imm s
/-- R116. -/
def execStf (x : DReg) (imm : Imm6) (s : State) : Result := runStore .fp x imm s

end Sys2Proof.Machine
end

