-- ==== Sys2Proof/Machine/Dispatch.lean ====
section
/-! DEFINITION. The dispatch: one arm per instruction, each one direct call of its meaning. `s` is the state after `pc`
has advanced to the next instruction (rule R19). -/

namespace Sys2Proof.Machine

/-- What an instruction does (`execute(w)` of R19). -/
def exec (i : Instr) (s : State) : Host.Outcome State Fault Refusal :=
  match i with
  | .addR x y => Sys2Proof.Machine.execAddR x y s
  | .addI x imm => Sys2Proof.Machine.execAddI x imm s
  | .adcR x y => Sys2Proof.Machine.execAdcR x y s
  | .adcI x imm => Sys2Proof.Machine.execAdcI x imm s
  | .subR x y => Sys2Proof.Machine.execSubR x y s
  | .subI x imm => Sys2Proof.Machine.execSubI x imm s
  | .sbcR x y => Sys2Proof.Machine.execSbcR x y s
  | .sbcI x imm => Sys2Proof.Machine.execSbcI x imm s
  | .cmpR x y => Sys2Proof.Machine.execCmpR x y s
  | .cmpI x imm => Sys2Proof.Machine.execCmpI x imm s
  | .cmcR x y => Sys2Proof.Machine.execCmcR x y s
  | .cmcI x imm => Sys2Proof.Machine.execCmcI x imm s
  | .andR x y => Sys2Proof.Machine.execAndR x y s
  | .andI x imm => Sys2Proof.Machine.execAndI x imm s
  | .orR x y => Sys2Proof.Machine.execOrR x y s
  | .orI x imm => Sys2Proof.Machine.execOrI x imm s
  | .xorR x y => Sys2Proof.Machine.execXorR x y s
  | .xorI x imm => Sys2Proof.Machine.execXorI x imm s
  | .shlR x y => Sys2Proof.Machine.execShlR x y s
  | .shlI x imm => Sys2Proof.Machine.execShlI x imm s
  | .shrR x y => Sys2Proof.Machine.execShrR x y s
  | .shrI x imm => Sys2Proof.Machine.execShrI x imm s
  | .res1011R x y => Sys2Proof.Machine.execRes1011R x y s
  | .res1011I x imm => Sys2Proof.Machine.execRes1011I x imm s
  | .movR x y => Sys2Proof.Machine.execMovR x y s
  | .movI x imm => Sys2Proof.Machine.execMovI x imm s
  | .mvhR x y => Sys2Proof.Machine.execMvhR x y s
  | .mvhI x imm => Sys2Proof.Machine.execMvhI x imm s
  | .tsbR x y => Sys2Proof.Machine.execTsbR x y s
  | .tsbI x imm => Sys2Proof.Machine.execTsbI x imm s
  | .sebR x y => Sys2Proof.Machine.execSebR x y s
  | .sebI x imm => Sys2Proof.Machine.execSebI x imm s
  | .nop => Sys2Proof.Machine.execNop s
  | .ld base x imm => Sys2Proof.Machine.execLd base x imm s
  | .ldr x imm => Sys2Proof.Machine.execLdr x imm s
  | .lds x imm => Sys2Proof.Machine.execLds x imm s
  | .ldf x imm => Sys2Proof.Machine.execLdf x imm s
  | .st base x imm => Sys2Proof.Machine.execSt base x imm s
  | .sts x imm => Sys2Proof.Machine.execSts x imm s
  | .stf x imm => Sys2Proof.Machine.execStf x imm s
  | .jmp r neg cc imm => Sys2Proof.Machine.execJmp r neg cc imm s
  | .jmpr neg cc imm => Sys2Proof.Machine.execJmpr neg cc imm s
  | .jmpbl neg cc imm => Sys2Proof.Machine.execJmpbl neg cc imm s
  | .jmpbh neg cc imm => Sys2Proof.Machine.execJmpbh neg cc imm s
  | .call r neg cc imm => Sys2Proof.Machine.execCall r neg cc imm s
  | .callr neg cc imm => Sys2Proof.Machine.execCallr neg cc imm s
  | .clbl neg cc imm => Sys2Proof.Machine.execClbl neg cc imm s
  | .clbh neg cc imm => Sys2Proof.Machine.execClbh neg cc imm s
  | .ret neg cc imm => Sys2Proof.Machine.execRet neg cc imm s
  | .clret neg cc imm => Sys2Proof.Machine.execClret neg cc imm s

end Sys2Proof.Machine
end

