-- ==== Sys2Proof/Machine/Launch.lean ====
section
/-! DEFINITION. The launch: the state a run starts from is given from outside the machine (rules R128, R137). -/

namespace Sys2Proof.Machine

/-- Starts a run from a given state, whose registers and memory may hold any values (R29, R137); an odd
RESET_PC is refused (R128, D23; log 20). -/
def launch (s : State) : Result :=
  if s.pc.getLsbD 0 then .refused (.oddResetPc s.pc) else .next s

end Sys2Proof.Machine
end

