-- ==== Sys2Proof/Machine/Step.lean ====
section
/-! DEFINITION. The step (rule R19) and the placing of one instruction word where the step fetches. -/

namespace Sys2Proof.Machine

/-- One step (R10, R19): fetch the word at `pc`, advance `pc` by 2, execute the word. -/
def step (s : State) : Host.Outcome State Fault Refusal :=
  match s.fetch s.pc with
  | .error r => .refused r
  | .ok w => exec (decodeWord w) (s.setPc (nextPc s.pc))

/-- `s` with a table word stored where `step` fetches its next instruction (R34; log 24). -/
def State.withFetchWord (s : State) (nbits w : Nat) : State := s.placeWord s.pc (tableWord nbits w)

end Sys2Proof.Machine
end

