-- ==== Sys2Proof/Safety.lean ====
section
/-! DEFINITION. The terms that claims use: the invariant of a run, its end, what an instruction may write, and what
two states share. -/

namespace Sys2Proof.Machine

/-- `pc` is even (R20). -/
abbrev State.pcEven (s : State) : Prop := s.pc.getLsbD 0 = false

/-- Memory is in its canonical form (log 4). -/
abbrev State.memWf (s : State) : Prop := Memory.wf s.mem = true

/-- The invariant of every run: `pc` is even (R20) and memory is canonical. -/
abbrev State.Inv (s : State) : Prop := s.pcEven ∧ s.memWf

/-- The word of the unconditional self-jump `jmpr -1` (R134). -/
def selfJump : Word := 0xCB7F#16

/-- The instruction word at `pc`, byte 1 at the lower address (R34). -/
def State.wordAtPc (s : State) : Word := s.readByte s.pc ++ s.readByte (s.pc + 1#16)

/-- A run has ended, by the spec's convention: `pc` is at an unconditional self-jump (R134, D24; log 24). -/
abbrev State.ended (s : State) : Prop := s.wordAtPc = selfJump

/-- Every memory byte reads the same in both states. -/
def SameMemory (s t : State) : Prop := ∀ a : Word, t.readByte a = s.readByte a

/-- Every memory byte but the one at `a` reads the same in both states. -/
def SameMemoryExcept (a : Word) (s t : State) : Prop := ∀ b : Word, b ≠ a → t.readByte b = s.readByte b

/-- Every byte register but those listed reads the same in both states; the sixteen D-mode registers are all
registers except `pc` (R16). -/
def SameRegistersExcept (ks : List DReg) (s t : State) : Prop :=
  ∀ k : DReg, k ∉ ks → t.readD k = s.readD k

/-- Of `pc`, registers and memory, only the listed byte registers change. -/
def OnlyRegistersChange (ks : List DReg) (s t : State) : Prop :=
  SameRegistersExcept ks s t ∧ SameMemory s t ∧ t.pc = s.pc

/-- Flags n and z describe the byte `r`: n is its bit 7, z says that it is zero (R21, R22). -/
def NzDescribe (r : Byte) (t : State) : Prop :=
  (srN t.sr = true ↔ 128 ≤ r.toNat) ∧ (srZ t.sr = true ↔ r.toNat = 0)

/-- `x` gets `r`; n and z describe it; c, v and the upper bits of `sr` are kept; nothing else changes (R73, R25). -/
def NzResult (x : DReg) (r : Byte) (s t : State) : Prop :=
  t.readD x = r ∧ NzDescribe r t ∧ srC t.sr = srC s.sr ∧ srV t.sr = srV s.sr ∧
    srHigh t.sr = srHigh s.sr ∧ OnlyRegistersChange [x, .sr] s t

/-- An integer outside the signed 8-bit range (R72). -/
def OutsideSignedByte (k : Int) : Prop := k < -128 ∨ 127 < k

/-- `x` gets `x + b + cin` modulo 256; c is carry out of 8 bits, v two's-complement overflow, n and z describe the
result (R72). -/
def SumResult (x : DReg) (b : Byte) (cin : Nat) (s t : State) : Prop :=
  (t.readD x).toNat = ((s.readD x).toNat + b.toNat + cin) % 256 ∧
    (srC t.sr = true ↔ 256 ≤ (s.readD x).toNat + b.toNat + cin) ∧
    (srV t.sr = true ↔ OutsideSignedByte ((s.readD x).toInt + b.toInt + cin)) ∧
    NzDescribe (t.readD x) t ∧ srHigh t.sr = srHigh s.sr ∧ OnlyRegistersChange [x, .sr] s t

/-- The flags of `x - b - borrow`: c says that no borrow occurred, v is two's-complement overflow, n and z
describe the difference modulo 256; the upper bits of `sr` are kept (R72, R77, R78). -/
def DifferenceFlags (x : DReg) (b : Byte) (borrow : Nat) (s t : State) : Prop :=
  (srC t.sr = true ↔ b.toNat + borrow ≤ (s.readD x).toNat) ∧
    (srV t.sr = true ↔ OutsideSignedByte ((s.readD x).toInt - b.toInt - borrow)) ∧
    NzDescribe (BitVec.ofNat 8 ((s.readD x).toNat + 256 - b.toNat - borrow)) t ∧
    srHigh t.sr = srHigh s.sr

/-- `x` gets `x - b - borrow` modulo 256, with the flags of that difference (R77, R78). -/
def DifferenceResult (x : DReg) (b : Byte) (borrow : Nat) (s t : State) : Prop :=
  (t.readD x).toNat = ((s.readD x).toNat + 256 - b.toNat - borrow) % 256 ∧
    DifferenceFlags x b borrow s t ∧ OnlyRegistersChange [x, .sr] s t

/-- No register but `sr` changes; the flags are those of `x - b - borrow` (R79, R80). -/
def CompareResult (x : DReg) (b : Byte) (borrow : Nat) (s t : State) : Prop :=
  DifferenceFlags x b borrow s t ∧ OnlyRegistersChange [.sr] s t

/-- z gets bit `op2[2:0]` of `x`, n gets bit `op2[5:3]`; c, v and the upper bits of `sr` are kept; no register but
`sr` changes (R90). -/
def TestResult (x : DReg) (op2 : Byte) (s t : State) : Prop :=
  srZ t.sr = (s.readD x).getLsbD (op2.toNat % 8) ∧ srN t.sr = (s.readD x).getLsbD (op2.toNat / 8 % 8) ∧
    srC t.sr = srC s.sr ∧ srV t.sr = srV s.sr ∧ srHigh t.sr = srHigh s.sr ∧
    OnlyRegistersChange [.sr] s t

/-- The conditions geu, eq and gu say how `a` compares with `b`, read unsigned (R96). -/
def UnsignedConditions (a b : Byte) (t : State) : Prop :=
  (condHolds .c t.sr = true ↔ b.toNat ≤ a.toNat) ∧
    (condHolds .z t.sr = true ↔ a = b) ∧
    (condHolds .gu t.sr = true ↔ b.toNat < a.toNat)

/-- The conditions ge and g say how `a` compares with `b`, read signed, when v is clear, and the opposite when v is
set; under the reading by name they always do (R96, D31; log 10). -/
def SignedConditions (a b : Byte) (t : State) : Prop :=
  (srV t.sr = false →
      (condHolds .ge t.sr = true ↔ b.toInt ≤ a.toInt) ∧ (condHolds .g t.sr = true ↔ b.toInt < a.toInt)) ∧
    (srV t.sr = true →
      (condHolds .ge t.sr = true ↔ ¬ b.toInt ≤ a.toInt) ∧
      (condHolds .g t.sr = true ↔ ¬ b.toInt < a.toInt)) ∧
    (condUnder .name .ge t.sr = true ↔ b.toInt ≤ a.toInt) ∧
    (condUnder .name .g t.sr = true ↔ b.toInt < a.toInt)

/-- `x` gets `r` and no flag is written; nothing else changes (R87, R88). -/
def PlainResult (x : DReg) (r : Byte) (s t : State) : Prop :=
  t.readD x = r ∧ OnlyRegistersChange [x] s t

/-- An operation with a result `r` and flags `f` whose destination is `sr`: `sr` ends as `r` with the written
flags on top, or as `r` alone; nothing else changes (R24, R74; log 6). -/
def StatusResult (out : AluOut) (o : Result) (s : State) : Prop :=
  ∃ t r f, out = .both r f ∧ o = .next t ∧ (t.sr = f.apply r ∨ t.sr = r) ∧
    OnlyRegistersChange [.sr] s t

/-- `x` gets the byte at `a`; nothing else changes (R110). -/
def LoadResult (x : DReg) (a : Word) (s t : State) : Prop := PlainResult x (s.readByte a) s t

/-- The byte at `a` becomes `x`; no other byte of memory, no register and not `pc` changes (R32, R114). -/
def StoreResult (x : DReg) (a : Word) (s t : State) : Prop :=
  t.readByte a = s.readD x ∧ SameMemoryExcept a s t ∧ SameRegistersExcept [] s t ∧ t.pc = s.pc

/-- `pc` gets the target, an integer taken modulo 65,536; no register and no memory byte changes (R93). -/
def JumpResult (target : Int) (s t : State) : Prop :=
  (t.pc.toNat : Int) = target % 65536 ∧ SameRegistersExcept [] s t ∧ SameMemory s t

/-- `ra` gets the address of the next instruction and `pc` the target; no other register and no memory byte
changes (R93, R95). -/
def CallResult (target : Int) (s t : State) : Prop :=
  t.ra = s.pc ∧ (t.pc.toNat : Int) = target % 65536 ∧ SameRegistersExcept [.raL, .raH] s t ∧ SameMemory s t

/-- An address with bit 0 cleared, as a number (R39). -/
def evenBelow (r : Word) : Int := (r.toNat / 2 * 2 : Nat)

/-- A data base as a number (R38). -/
def dataBase (base : MBase) (s : State) : Int :=
  match base with
  | .sp => 256 + (s.sp.toNat : Int)
  | .fp => 256 + (s.fp.toNat : Int)
  | .pc => s.pc.toNat
  | .gb => 512 + (s.gb.toNat : Int)
  | .reg r => (s.readW r).toNat

/-- A control base as a number (R39). -/
def controlBase (base : CBase) (s : State) : Int :=
  match base with
  | .bl => 64
  | .bh => 192
  | .pc => s.pc.toNat
  | .ra => evenBelow s.ra
  | .reg r => evenBelow (s.readW r)

/-- The D-mode register an instruction names as destination, if it writes a result there (R24, R70, R109, C10). -/
def destination : Instr → Option DReg
  | .addR x _ | .adcR x _ | .subR x _ | .sbcR x _ | .andR x _ | .orR x _ | .xorR x _ | .shlR x _
  | .shrR x _ | .movR x _ | .mvhR x _ | .sebR x _ => some x
  | .addI x _ | .adcI x _ | .subI x _ | .sbcI x _ | .andI x _ | .orI x _ | .xorI x _ | .shlI x _
  | .shrI x _ | .movI x _ | .mvhI x _ | .sebI x _ => some x
  | .ld _ x _ | .ldr x _ | .lds x _ | .ldf x _ => some x
  | .cmpR _ _ | .cmpI _ _ | .cmcR _ _ | .cmcI _ _ | .tsbR _ _ | .tsbI _ _ => none
  | .res1011R _ _ | .res1011I _ _ | .nop => none
  | .st _ _ _ | .sts _ _ | .stf _ _ => none
  | .jmp _ _ _ _ | .jmpr _ _ _ | .jmpbl _ _ _ | .jmpbh _ _ _ | .ret _ _ _ => none
  | .call _ _ _ _ | .callr _ _ _ | .clbl _ _ _ | .clbh _ _ _ | .clret _ _ _ => none

/-- Whether an instruction's "Flags Affected" entry names a flag (R22). -/
def writesFlags : Instr → Bool
  | .addR _ _ | .adcR _ _ | .subR _ _ | .sbcR _ _ | .cmpR _ _ | .cmcR _ _ | .andR _ _ | .orR _ _
  | .xorR _ _ | .shlR _ _ | .shrR _ _ | .tsbR _ _ | .sebR _ _ => true
  | .addI _ _ | .adcI _ _ | .subI _ _ | .sbcI _ _ | .cmpI _ _ | .cmcI _ _ | .andI _ _ | .orI _ _
  | .xorI _ _ | .shlI _ _ | .shrI _ _ | .tsbI _ _ | .sebI _ _ => true
  | .movR _ _ | .movI _ _ | .mvhR _ _ | .mvhI _ _ | .res1011R _ _ | .res1011I _ _ | .nop => false
  | .ld _ _ _ | .ldr _ _ | .lds _ _ | .ldf _ _ | .st _ _ _ | .sts _ _ | .stf _ _ => false
  | .jmp _ _ _ _ | .jmpr _ _ _ | .jmpbl _ _ _ | .jmpbh _ _ _ | .ret _ _ _ => false
  | .call _ _ _ _ | .callr _ _ _ | .clbl _ _ _ | .clbh _ _ _ | .clret _ _ _ => false

/-- Whether an instruction is a call: a format-C instruction with `s = 1` (R51, R95). -/
def isCall : Instr → Bool
  | .call _ _ _ _ | .callr _ _ _ | .clbl _ _ _ | .clbh _ _ _ | .clret _ _ _ => true
  | .addR _ _ | .addI _ _ | .adcR _ _ | .adcI _ _ | .subR _ _ | .subI _ _ | .sbcR _ _ | .sbcI _ _
  | .cmpR _ _ | .cmpI _ _ | .cmcR _ _ | .cmcI _ _ | .andR _ _ | .andI _ _ | .orR _ _ | .orI _ _
  | .xorR _ _ | .xorI _ _ | .shlR _ _ | .shlI _ _ | .shrR _ _ | .shrI _ _ | .res1011R _ _
  | .res1011I _ _ | .movR _ _ | .movI _ _ | .mvhR _ _ | .mvhI _ _ | .tsbR _ _ | .tsbI _ _
  | .sebR _ _ | .sebI _ _ | .nop | .ld _ _ _ | .ldr _ _ | .lds _ _ | .ldf _ _ | .st _ _ _
  | .sts _ _ | .stf _ _ | .jmp _ _ _ _ | .jmpr _ _ _ | .jmpbl _ _ _ | .jmpbh _ _ _ | .ret _ _ _ => false

/-- Whether an instruction is of format C (R47, R51). -/
def isControl : Instr → Bool
  | .call _ _ _ _ | .callr _ _ _ | .clbl _ _ _ | .clbh _ _ _ | .clret _ _ _ => true
  | .jmp _ _ _ _ | .jmpr _ _ _ | .jmpbl _ _ _ | .jmpbh _ _ _ | .ret _ _ _ => true
  | .addR _ _ | .addI _ _ | .adcR _ _ | .adcI _ _ | .subR _ _ | .subI _ _ | .sbcR _ _ | .sbcI _ _
  | .cmpR _ _ | .cmpI _ _ | .cmcR _ _ | .cmcI _ _ | .andR _ _ | .andI _ _ | .orR _ _ | .orI _ _
  | .xorR _ _ | .xorI _ _ | .shlR _ _ | .shlI _ _ | .shrR _ _ | .shrI _ _ | .res1011R _ _
  | .res1011I _ _ | .movR _ _ | .movI _ _ | .mvhR _ _ | .mvhI _ _ | .tsbR _ _ | .tsbI _ _
  | .sebR _ _ | .sebI _ _ | .nop | .ld _ _ _ | .ldr _ _ | .lds _ _ | .ldf _ _ | .st _ _ _
  | .sts _ _ | .stf _ _ => false

/-- Where an instruction stores, in the state it executes in (R114 to R116); `none` for one that stores nothing (R32). -/
def storeAddr (i : Instr) (s : State) : Option Word :=
  match i with
  | .st base _ imm => some (dataAddr base imm s)
  | .sts _ imm => some (dataAddr .sp imm s)
  | .stf _ imm => some (dataAddr .fp imm s)
  | .addR _ _ | .addI _ _ | .adcR _ _ | .adcI _ _ | .subR _ _ | .subI _ _ | .sbcR _ _ | .sbcI _ _
  | .cmpR _ _ | .cmpI _ _ | .cmcR _ _ | .cmcI _ _ | .andR _ _ | .andI _ _ | .orR _ _ | .orI _ _
  | .xorR _ _ | .xorI _ _ | .shlR _ _ | .shlI _ _ | .shrR _ _ | .shrI _ _ | .res1011R _ _
  | .res1011I _ _ | .movR _ _ | .movI _ _ | .mvhR _ _ | .mvhI _ _ | .tsbR _ _ | .tsbI _ _
  | .sebR _ _ | .sebI _ _ | .nop | .ld _ _ _ | .ldr _ _ | .lds _ _ | .ldf _ _ | .jmp _ _ _ _
  | .jmpr _ _ _ | .jmpbl _ _ _ | .jmpbh _ _ _ | .ret _ _ _ | .call _ _ _ _ | .callr _ _ _
  | .clbl _ _ _ | .clbh _ _ _ | .clret _ _ _ => none

end Sys2Proof.Machine
end

