-- ==== Sys2Proof/Certificates/Slice0/Obligations.lean ====
section
/-! DEFINITION. The statements for the provers. Each docstring names the part of spec/ it rests on; where a clause rests
on a choice of the model or a decision the spec marks as its own, the docstring names the log entry. -/

open Sys2Proof Sys2Proof.Machine

/-- For every well-formed instruction and every byte sequence after it, the decoder reads from the encoded bytes
that instruction, with every operand, and leaves the sequence. The byte order is the model's setting (log 1);
which of two terms with one word is well-formed is the model's choice (log 23). [30_encoding.md sections 1 to 4
(formats, fields, code tables, opcode map); 20_memory.md rule R34 with 92_eei_decisions.md D3 (byte order, log
1); 30_encoding.md rule R69 (named forms, log 23)] -/
def Obligations.DecodeUndoesEncode : Prop :=
  ∀ (i : Instr) (rest : List Byte), i.wellFormed = true →
    decodeBytes (encodeBytes i ++ rest) = .ok (i, rest)

/-- For every 16-bit word, encoding what the decoder reads gives the word itself outside format A, and in format A
the word with bits 9:8 cleared; so no field of any word is dropped. That bits 9:8 of format A are ignored is the
spec's own decision D6 (log 14). [30_encoding.md sections 1 to 4 (formats, fields, opcode map); 30_encoding.md
rule R63 with 92_eei_decisions.md D6 (log 14)] -/
def Obligations.EncodeUndoesDecode : Prop :=
  ∀ w : Word, encode (decodeWord w) = if w.toNat < 0x4000 then w &&& 0xFCFF#16 else w

/-- For every 16-bit word the decoder's answer is well-formed: where a named form and a general form share a word,
the answer is the named form (the model's choice, log 23). [30_encoding.md rules R59, R65, R69; log 23] -/
def Obligations.DecoderAnswersWellFormed : Prop :=
  ∀ w : Word, (decodeWord w).wellFormed = true

/-- A word decodes to the reserved register form exactly when it lies in 0x2C00..0x2FFF, and to the reserved
immediate form exactly when it lies in 0x6C00..0x6FFF. [30_encoding.md rule R59 (reserved words counted);
30_encoding.md rule R62 (word ranges)] -/
def Obligations.ReservedWordsAreCode1011 : Prop :=
  ∀ w : Word,
    ((∃ x y, decodeWord w = .res1011R x y) ↔ (0x2C00 ≤ w.toNat ∧ w.toNat ≤ 0x2FFF)) ∧
    ((∃ x imm, decodeWord w = .res1011I x imm) ↔ (0x6C00 ≤ w.toNat ∧ w.toNat ≤ 0x6FFF))

/-- Words written out in the spec's vectors, one or more per family, decode as the vectors say. [95_test_vectors.md
section 2 (decoding and immediates); 95_test_vectors.md sections 5 and 6 (words)] -/
def Obligations.SpecExampleWordsDecode : Prop :=
  decodeWord 0b0011000001010101#16 = .nop ∧
    decodeWord 0b0000001101010110#16 = .addR .gb .gc ∧
    decodeWord 0b0111101101011001#16 = .tsbI .gb 0b111001#6 ∧
    decodeWord 0b0110011101010001#16 = .shlI .gb 0b110001#6 ∧
    decodeWord 0b1000100001010010#16 = .ldr .gb 0b000010#6 ∧
    decodeWord 0b1001111101101111#16 = .ld (.reg .gh) .gc 0b111111#6 ∧
    decodeWord 0b1010100001010000#16 = .st .pc .gb 0b000000#6 ∧
    decodeWord 0b1100101110111101#16 = .jmpr true .z 0b111101#6 ∧
    decodeWord 0b1111110001110101#16 = .call .gh false .always 0b000101#6 ∧
    decodeWord 0b1110110001110000#16 = .clret false .always 0b000000#6

/-- nop is mov gb, gb; lds, ldf, ldr are ld with base sp, fp, pc; sts, stf are st with base sp, fp: same word and
same effect; ret_ and clret_ are the format-C words with base ra and s = 0, s = 1. [R69] -/
def Obligations.NamedFormsAreGeneralForms : Prop :=
  (encode .nop = encode (.movR .gb .gb) ∧ ∀ s, exec .nop s = exec (.movR .gb .gb) s) ∧
    (∀ x imm, encode (.lds x imm) = encode (.ld .sp x imm) ∧ ∀ s, exec (.lds x imm) s = exec (.ld .sp x imm) s) ∧
    (∀ x imm, encode (.ldf x imm) = encode (.ld .fp x imm) ∧ ∀ s, exec (.ldf x imm) s = exec (.ld .fp x imm) s) ∧
    (∀ x imm, encode (.ldr x imm) = encode (.ld .pc x imm) ∧ ∀ s, exec (.ldr x imm) s = exec (.ld .pc x imm) s) ∧
    (∀ x imm, encode (.sts x imm) = encode (.st .sp x imm) ∧ ∀ s, exec (.sts x imm) s = exec (.st .sp x imm) s) ∧
    (∀ x imm, encode (.stf x imm) = encode (.st .fp x imm) ∧ ∀ s, exec (.stf x imm) s = exec (.st .fp x imm) s) ∧
    (∀ neg cc imm, encode (.ret neg cc imm) = wordC false .ra neg cc imm) ∧
    (∀ neg cc imm, encode (.clret neg cc imm) = wordC true .ra neg cc imm)

/-- When the two bytes at pc and pc+1, the first the more significant (the spec's default byte order, log 1), decode
to an instruction i, the step is exec of i in the state whose pc is advanced by 2; a well-formed i whose bytes
lie at pc is run. [10_state.md section 2 (the step, R19); 20_memory.md section 1 (Fetch16) with
92_eei_decisions.md D3 (log 1); 92_eei_decisions.md D4 (pc + 2 wraps, log 12)] -/
def Obligations.StepRunsDecodedInstruction : Prop :=
  (∀ (s : State) (i : Instr), decodeWord (s.readByte s.pc ++ s.readByte (s.pc + 1#16)) = i →
      step s = exec i (s.setPc (s.pc + 2#16))) ∧
    (∀ (s : State) (i : Instr), i.wellFormed = true →
      encodeBytes i = [s.readByte s.pc, s.readByte (s.pc + 1#16)] →
      step s = exec i (s.setPc (s.pc + 2#16)))

/-- From every state whose pc is even and whose memory is canonical (addresses strictly rising and below 65,536), a
step that answers a next state leaves pc even and memory canonical. [10_state.md rule R20 (derived);
20_memory.md rule R36 (derived); log 4 (canonical memory)] -/
def Obligations.StepKeepsInvariant : Prop :=
  ∀ s t : State, s.Inv → step s = .next t → t.Inv

/-- State.reset meets the invariant and lists no memory byte. The value of RESET_PC is the model's choice (log 2).
[70_reset_and_hazards.md section 1 (RESET_PC even); log 2; log 4] -/
def Obligations.ResetMeetsInvariant : Prop :=
  State.reset.Inv ∧ State.reset.mem = []

/-- No step faults or is refused: every word is an instruction with a next state. This rests on the model's settings
OP1011 = nop (log 5), SR_DEST_ORDER free (log 6) and all memory RAM (log 9). [60_exceptions.md sections 1 to 3
(no exception, no interrupt, one mode); 30_encoding.md rule R65; log 5; log 6; log 9] -/
def Obligations.EveryStepCompletes : Prop :=
  ∀ s : State, ∃ t, step s = .next t

/-- When the word at pc is 0xCB7F (jmpr -1), the step answers the same state, whole. That a run ends there is the
spec's own convention (D24). That the byte at the lower address is the first, more significant one is the
model's setting of INSN_BYTE_ORDER (the spec's own default D3; DESIGN CHOICE, log 1). [70_reset_and_hazards.md
section 3 (end of a run) with 92_eei_decisions.md D24; log 24; 20_memory.md rule R34 with 92_eei_decisions.md D3
(byte order, log 1)] -/
def Obligations.SelfJumpIsFixedPoint : Prop :=
  ∀ s : State, s.ended → step s = .next s

/-- If the word at pc is not of format C, a step that answers a next state leaves pc at (pc + 2) mod 65536 (the wrap
is the spec's own decision D4, log 12). That the byte at the lower address is the first, more significant one is
the model's setting of INSN_BYTE_ORDER (the spec's own default D3; DESIGN CHOICE, log 1). [10_state.md section 2
(the step, R19); 92_eei_decisions.md D4 (log 12); 20_memory.md rule R34 with 92_eei_decisions.md D3 (byte order,
log 1)] -/
def Obligations.OnlyControlMovesPc : Prop :=
  ∀ s t : State, isControl (decodeWord s.wordAtPc) = false → step s = .next t →
    t.pc.toNat = (s.pc.toNat + 2) % 65536

/-- When the word at pc is st pc, x, 0, the step answers a state at the next instruction whose first byte is the
register stored and whose second byte is as it was, the next fetch's word. That the fetch sees the store is the
spec's own decision D22 (log 22) (DESIGN CHOICE). That the byte at the lower address is the first, more
significant one is the model's setting of INSN_BYTE_ORDER (the spec's own default D3; DESIGN CHOICE, log 1).
That the pc base is the next instruction's address is the spec's own decision D15 (log 17). That the access
succeeds at every address rests on all memory being RAM, the spec's own default D20 (log 9). [20_memory.md rule
R45 with 92_eei_decisions.md D22 (log 22); 42_load_store.md rule R114 (st pc, y, 0); 20_memory.md rule R34 with
92_eei_decisions.md D3 (byte order, log 1); 92_eei_decisions.md D15 (pc base, log 17); 92_eei_decisions.md D20
(all memory RAM, log 9)] -/
def Obligations.StoreIntoNextInstructionIsFetched : Prop :=
  ∀ (s : State) (x : DReg), s.wordAtPc = encode (.st .pc x 0#6) →
    ∃ t, step s = .next t ∧ t.pc = s.pc + 2#16 ∧ t.readByte t.pc = s.readD x ∧
      t.wordAtPc = s.readD x ++ s.readByte (s.pc + 3#16)

/-- A write puts the byte at its address and changes no other byte; and when an instruction answers a next state,
every address that it does not store to (for all but st, sts, stf: every address) reads as before. [R32] -/
def Obligations.OnlyStoresWriteMemory : Prop :=
  (∀ (s : State) (a : Word) (v : Byte), (s.writeByte a v).readByte a = v ∧
      SameMemoryExcept a s (s.writeByte a v)) ∧
    (∀ (i : Instr) (s t : State), exec i s = .next t →
      ∀ a : Word, storeAddr i s ≠ some a → t.readByte a = s.readByte a)

/-- When an instruction answers a next state, every byte register other than sr, the destination the instruction
names, and (for a call) the two bytes of ra, is unchanged; so sp moves only when named. [10_state.md rule R17
(derived); 10_state.md rule R28 (derived); 41_control.md section 1 (link write)] -/
def Obligations.RegistersChangeOnlyAsNamed : Prop :=
  ∀ (i : Instr) (s t : State) (k : DReg), exec i s = .next t → k ≠ .sr → destination i ≠ some k →
    (isCall i = true → k ≠ .raL ∧ k ≠ .raH) → t.readD k = s.readD k

/-- When an instruction that does not name sr as its destination answers a next state, bits 7:4 of sr are unchanged
(the spec's own decision D11, log 15), and sr is unchanged whole if the instruction affects no flag: mov, mvh,
nop, the reserved code, loads, stores and control transfers. [10_state.md rules R22 and R24 (which instruction
writes which flag); 10_state.md rule R25 with 92_eei_decisions.md D11 (log 15); 42_load_store.md section 1 (no
flag affected, derived); 41_control.md section 1] -/
def Obligations.StatusChangesOnlyByFlagsOrName : Prop :=
  ∀ (i : Instr) (s t : State), exec i s = .next t → destination i ≠ some .sr →
    srHigh t.sr = srHigh s.sr ∧ (writesFlags i = false → t.sr = s.sr)

/-- The sixteen codes read ra.l, ra.h, sr, sp, fp, gb, gc, gd and the low and high bytes of ge, gf, gg, gh, in that
order, and a write through a code is read back through it. [R16] -/
def Obligations.DModeTableNamesRegisterBytes : Prop :=
  (∀ s : State,
      s.readD (DReg.ofCode 0b0000#4) = s.ra.extractLsb' 0 8 ∧ s.readD (DReg.ofCode 0b0001#4) = s.ra.extractLsb' 8 8 ∧
      s.readD (DReg.ofCode 0b0010#4) = s.sr ∧ s.readD (DReg.ofCode 0b0011#4) = s.sp ∧
      s.readD (DReg.ofCode 0b0100#4) = s.fp ∧ s.readD (DReg.ofCode 0b0101#4) = s.gb ∧
      s.readD (DReg.ofCode 0b0110#4) = s.gc ∧ s.readD (DReg.ofCode 0b0111#4) = s.gd ∧
      s.readD (DReg.ofCode 0b1000#4) = s.ge.extractLsb' 0 8 ∧ s.readD (DReg.ofCode 0b1001#4) = s.ge.extractLsb' 8 8 ∧
      s.readD (DReg.ofCode 0b1010#4) = s.gf.extractLsb' 0 8 ∧ s.readD (DReg.ofCode 0b1011#4) = s.gf.extractLsb' 8 8 ∧
      s.readD (DReg.ofCode 0b1100#4) = s.gg.extractLsb' 0 8 ∧ s.readD (DReg.ofCode 0b1101#4) = s.gg.extractLsb' 8 8 ∧
      s.readD (DReg.ofCode 0b1110#4) = s.gh.extractLsb' 0 8 ∧ s.readD (DReg.ofCode 0b1111#4) = s.gh.extractLsb' 8 8) ∧
    (∀ (s : State) (k : BitVec 4) (v : Byte), (s.writeD (DReg.ofCode k) v).readD (DReg.ofCode k) = v)

/-- Writing one byte register leaves the other fifteen, pc and memory unchanged, so the other half of a 16-bit
register keeps its value; and each 16-bit register is its high byte followed by its low byte. [10_state.md rule
R15 (the other half is unchanged, derived)] -/
def Obligations.ByteWritesLeaveOtherBytes : Prop :=
  (∀ (s : State) (k j : DReg) (v : Byte), (s.writeD k v).readD j = (if j = k then v else s.readD j) ∧
      (s.writeD k v).pc = s.pc ∧ (s.writeD k v).mem = s.mem) ∧
    (∀ s : State, s.ra = s.readD .raH ++ s.readD .raL ∧ s.ge = s.readD .geH ++ s.readD .geL ∧
      s.gf = s.readD .gfH ++ s.readD .gfL ∧ s.gg = s.readD .ggH ++ s.readD .ggL ∧
      s.gh = s.readD .ghH ++ s.readD .ghL)

/-- Read as signed numbers, the 8-bit operand and the 16-bit offset equal the 6-bit immediate, which lies in
-32..31, and the control displacement is twice it. The extension widths are the spec's own decision D5 (log 13).
[30_encoding.md rule R53 (extension and scaling); 92_eei_decisions.md D5 (log 13)] -/
def Obligations.ImmediateExtensions : Prop :=
  ∀ imm : Imm6, -32 ≤ imm.toInt ∧ imm.toInt ≤ 31 ∧ (immByte imm).toInt = imm.toInt ∧
    (immOffset imm).toInt = imm.toInt ∧ (immDisplacement imm).toInt = 2 * imm.toInt

/-- For each of the eight bases the address is (base + imm) mod 65536 with base 0x0100 + sp, 0x0100 + fp, pc, 0x0200
+ gb or a 16-bit register. The wrap and the lack of a page wrap are the spec's own decision D5 (log 13).
[20_memory.md rule R38 (data effective address); 92_eei_decisions.md D5 (log 13); 92_eei_decisions.md D15 (pc
base, log 17)] -/
def Obligations.DataAddressIsWrappedSum : Prop :=
  ∀ (base : MBase) (imm : Imm6) (s : State),
    ((dataAddr base imm s).toNat : Int) = (dataBase base s + imm.toInt) % 65536

/-- For each of the eight bases the target is (base + 2*imm) mod 65536 with base 0x0040, 0x00C0, pc or a register
with bit 0 cleared; it is even whenever pc is even. The wrap is the spec's own decision D5 (log 13).
[20_memory.md rule R39 (control target); 41_control.md rule R94 with 92_eei_decisions.md D5 (log 13);
10_state.md rule R20 (derived)] -/
def Obligations.ControlTargetIsWrappedSum : Prop :=
  ∀ (base : CBase) (imm : Imm6) (s : State),
    ((controlTarget base imm s).toNat : Int) = (controlBase base s + 2 * imm.toInt) % 65536 ∧
      (s.pcEven → (controlTarget base imm s).getLsbD 0 = false)

/-- An address is a target of base bl for some immediate exactly when it is even and at most 0x007E, and of base bh
exactly when it is even and in 0x0080..0x00FE, whatever the state. [10_state.md rule R27 (what reaches each
range); 41_control.md rule R94 (reachable targets)] -/
def Obligations.FixedBasesReachTheBootloader : Prop :=
  ∀ (s : State) (a : Word),
    ((∃ imm, controlTarget .bl imm s = a) ↔ (a.toNat % 2 = 0 ∧ a.toNat ≤ 0x7E)) ∧
    ((∃ imm, controlTarget .bh imm s = a) ↔ (a.toNat % 2 = 0 ∧ 0x80 ≤ a.toNat ∧ a.toNat ≤ 0xFE))

/-- For every destination but sr and both forms, add and adc complete; x gets x + op2 (+ c for adc) modulo 256; c is
set exactly when the sum reaches 256, v exactly when the signed sum leaves -128..127, n and z describe the
result; other registers, upper sr bits, pc and memory are unchanged. The definition of v is the spec's own (D10,
log 16). The extension of the immediate to 8 bits is the spec's own decision D5 (log 13). That n is bit 7 is the
spec's own decision D9 (log 16). That bits 7:4 of sr are kept is the spec's own decision D11 (log 15).
[40_alu.md section 2 (add, adc) and section 1 (the adder); 92_eei_decisions.md D10 (flag v, log 16);
92_eei_decisions.md D9 (flag n, log 16); 92_eei_decisions.md D5 (immediate extension, log 13); 10_state.md rule
R25 with 92_eei_decisions.md D11 (upper sr bits, log 15)] -/
def Obligations.AddAndAdcGiveSumAndFlags : Prop :=
  ∀ (s : State) (x : DReg), x ≠ .sr →
    (∀ y, ∃ t, exec (.addR x y) s = .next t ∧ SumResult x (s.readD y) 0 s t) ∧
    (∀ imm, ∃ t, exec (.addI x imm) s = .next t ∧ SumResult x (immByte imm) 0 s t) ∧
    (∀ y, ∃ t, exec (.adcR x y) s = .next t ∧ SumResult x (s.readD y) (srC s.sr).toNat s t) ∧
    (∀ imm, ∃ t, exec (.adcI x imm) s = .next t ∧ SumResult x (immByte imm) (srC s.sr).toNat s t)

/-- For every destination but sr and both forms, sub and sbc complete; x gets x - op2 (- 1 for sbc with c clear)
modulo 256; c is set exactly when no borrow occurred, v exactly when the signed difference leaves -128..127, n
and z describe the result; the rest is unchanged. The definition of v is the spec's own (D10, log 16). The
extension of the immediate to 8 bits is the spec's own decision D5 (log 13). That n is bit 7 is the spec's own
decision D9 (log 16). That bits 7:4 of sr are kept is the spec's own decision D11 (log 15). [40_alu.md section 2
(sub, sbc) and section 1 (the adder); 92_eei_decisions.md D10 (flag v, log 16); 92_eei_decisions.md D9 (flag n,
log 16); 92_eei_decisions.md D5 (immediate extension, log 13); 10_state.md rule R25 with 92_eei_decisions.md D11
(upper sr bits, log 15)] -/
def Obligations.SubAndSbcGiveDifferenceAndFlags : Prop :=
  ∀ (s : State) (x : DReg), x ≠ .sr →
    (∀ y, ∃ t, exec (.subR x y) s = .next t ∧ DifferenceResult x (s.readD y) 0 s t) ∧
    (∀ imm, ∃ t, exec (.subI x imm) s = .next t ∧ DifferenceResult x (immByte imm) 0 s t) ∧
    (∀ y, ∃ t, exec (.sbcR x y) s = .next t ∧ DifferenceResult x (s.readD y) (1 - (srC s.sr).toNat) s t) ∧
    (∀ imm, ∃ t, exec (.sbcI x imm) s = .next t ∧ DifferenceResult x (immByte imm) (1 - (srC s.sr).toNat) s t)

/-- For every x, sr included, and both forms, cmp and cmc complete, set c, v, n, z as sub and sbc would, and change
no register but the flags of sr, no pc and no memory. The definition of v is the spec's own (D10, log 16). The
extension of the immediate to 8 bits is the spec's own decision D5 (log 13). That n is bit 7 is the spec's own
decision D9 (log 16). That bits 7:4 of sr are kept is the spec's own decision D11 (log 15). [40_alu.md section 2
(cmp, cmc) and section 1 (the adder); 92_eei_decisions.md D10 (flag v, log 16); 92_eei_decisions.md D9 (flag n,
log 16); 92_eei_decisions.md D5 (immediate extension, log 13); 10_state.md rule R25 with 92_eei_decisions.md D11
(upper sr bits, log 15)] -/
def Obligations.CmpAndCmcSetFlagsOnly : Prop :=
  ∀ (s : State) (x : DReg),
    (∀ y, ∃ t, exec (.cmpR x y) s = .next t ∧ CompareResult x (s.readD y) 0 s t) ∧
    (∀ imm, ∃ t, exec (.cmpI x imm) s = .next t ∧ CompareResult x (immByte imm) 0 s t) ∧
    (∀ y, ∃ t, exec (.cmcR x y) s = .next t ∧ CompareResult x (s.readD y) (1 - (srC s.sr).toNat) s t) ∧
    (∀ imm, ∃ t, exec (.cmcI x imm) s = .next t ∧ CompareResult x (immByte imm) (1 - (srC s.sr).toNat) s t)

/-- Words with operation code 0110 decode to and, in format A whatever bits 9:8 are; for every destination but sr
and both forms and completes, each bit of x becomes the conjunction of the operands' bits, n and z describe the
result, and c, v, all other registers, pc and memory are unchanged. (Destination sr:
AluResultIntoStatusRegister.) Ignoring bits 9:8 of format A is the spec's own decision D6 (log 14). The
extension of the immediate to 8 bits is the spec's own decision D5 (log 13). That n is bit 7 is the spec's own
decision D9 (log 16). That bits 7:4 of sr are kept is the spec's own decision D11 (log 15). [40_alu.md rule R81;
30_encoding.md rule R63 with 92_eei_decisions.md D6 (bits 9:8, log 14); 92_eei_decisions.md D5 (immediate
extension, log 13); 92_eei_decisions.md D9 (flag n, log 16); 10_state.md rule R25 with 92_eei_decisions.md D11
(upper sr bits, log 15)] -/
def Obligations.AndCombinesBitsAndSetsNz : Prop :=
  (∀ u x y, decodeWord (pictureA 0b0110#4 u x y) = .andR x y) ∧
    (∀ x imm, decodeWord (wordIA 0b0110#4 x imm) = .andI x imm) ∧
    (∀ (s : State) (x : DReg), x ≠ .sr →
      (∀ y, ∃ t r, exec (.andR x y) s = .next t ∧ NzResult x r s t ∧
        ∀ i < 8, r.getLsbD i = ((s.readD x).getLsbD i && (s.readD y).getLsbD i)) ∧
      (∀ imm, ∃ t r, exec (.andI x imm) s = .next t ∧ NzResult x r s t ∧
        ∀ i < 8, r.getLsbD i = ((s.readD x).getLsbD i && (immByte imm).getLsbD i)))

/-- Words with operation code 0111 decode to or, in format A whatever bits 9:8 are; for every destination but sr and
both forms or completes, each bit of x becomes the disjunction of the operands' bits, n and z describe the
result, and c, v, all other registers, pc and memory are unchanged. (Destination sr:
AluResultIntoStatusRegister.) Ignoring bits 9:8 of format A is the spec's own decision D6 (log 14). The
extension of the immediate to 8 bits is the spec's own decision D5 (log 13). That n is bit 7 is the spec's own
decision D9 (log 16). That bits 7:4 of sr are kept is the spec's own decision D11 (log 15). [40_alu.md rule R82;
30_encoding.md rule R63 with 92_eei_decisions.md D6 (bits 9:8, log 14); 92_eei_decisions.md D5 (immediate
extension, log 13); 92_eei_decisions.md D9 (flag n, log 16); 10_state.md rule R25 with 92_eei_decisions.md D11
(upper sr bits, log 15)] -/
def Obligations.OrCombinesBitsAndSetsNz : Prop :=
  (∀ u x y, decodeWord (pictureA 0b0111#4 u x y) = .orR x y) ∧
    (∀ x imm, decodeWord (wordIA 0b0111#4 x imm) = .orI x imm) ∧
    (∀ (s : State) (x : DReg), x ≠ .sr →
      (∀ y, ∃ t r, exec (.orR x y) s = .next t ∧ NzResult x r s t ∧
        ∀ i < 8, r.getLsbD i = ((s.readD x).getLsbD i || (s.readD y).getLsbD i)) ∧
      (∀ imm, ∃ t r, exec (.orI x imm) s = .next t ∧ NzResult x r s t ∧
        ∀ i < 8, r.getLsbD i = ((s.readD x).getLsbD i || (immByte imm).getLsbD i)))

/-- Words with operation code 1000 decode to xor, in format A whatever bits 9:8 are; for every destination but sr
and both forms xor completes, each bit of x becomes the exclusive or of the operands' bits, n and z describe the
result, and c, v, all other registers, pc and memory are unchanged. (Destination sr:
AluResultIntoStatusRegister.) Ignoring bits 9:8 of format A is the spec's own decision D6 (log 14). The
extension of the immediate to 8 bits is the spec's own decision D5 (log 13). That n is bit 7 is the spec's own
decision D9 (log 16). That bits 7:4 of sr are kept is the spec's own decision D11 (log 15). [40_alu.md rule R83;
30_encoding.md rule R63 with 92_eei_decisions.md D6 (bits 9:8, log 14); 92_eei_decisions.md D5 (immediate
extension, log 13); 92_eei_decisions.md D9 (flag n, log 16); 10_state.md rule R25 with 92_eei_decisions.md D11
(upper sr bits, log 15)] -/
def Obligations.XorCombinesBitsAndSetsNz : Prop :=
  (∀ u x y, decodeWord (pictureA 0b1000#4 u x y) = .xorR x y) ∧
    (∀ x imm, decodeWord (wordIA 0b1000#4 x imm) = .xorI x imm) ∧
    (∀ (s : State) (x : DReg), x ≠ .sr →
      (∀ y, ∃ t r, exec (.xorR x y) s = .next t ∧ NzResult x r s t ∧
        ∀ i < 8, r.getLsbD i = (Bool.xor ((s.readD x).getLsbD i) ((s.readD y).getLsbD i))) ∧
      (∀ imm, ∃ t r, exec (.xorI x imm) s = .next t ∧ NzResult x r s t ∧
        ∀ i < 8, r.getLsbD i = (Bool.xor ((s.readD x).getLsbD i) ((immByte imm).getLsbD i))))

/-- Words with operation code 1001 decode to shl; for every destination but sr and both forms shl completes, x
becomes x times 2 to the power op2 mod 8, modulo 256, n and z describe it, and c, v, all other registers, pc and
memory are unchanged. (Destination sr: AluResultIntoStatusRegister.) Ignoring bits 9:8 of format A is the spec's
own decision D6 (log 14). That every immediate runs, those with bits the row draws as zero included, is the
spec's own decision D29 (log 19). The extension of the immediate to 8 bits is the spec's own decision D5 (log
13). That n is bit 7 is the spec's own decision D9 (log 16). That bits 7:4 of sr are kept is the spec's own
decision D11 (log 15). [40_alu.md rule R84; 30_encoding.md rule R63 with 92_eei_decisions.md D6 (bits 9:8, log
14); 30_encoding.md rule R61 with 92_eei_decisions.md D29 (immediates, log 19); 92_eei_decisions.md D5
(immediate extension, log 13); 92_eei_decisions.md D9 (flag n, log 16); 10_state.md rule R25 with
92_eei_decisions.md D11 (upper sr bits, log 15)] -/
def Obligations.ShlMultipliesAndSetsNz : Prop :=
  (∀ u x y, decodeWord (pictureA 0b1001#4 u x y) = .shlR x y) ∧
    (∀ x imm, decodeWord (wordIA 0b1001#4 x imm) = .shlI x imm) ∧
    (∀ (s : State) (x : DReg), x ≠ .sr →
      (∀ y, ∃ t, exec (.shlR x y) s = .next t ∧ NzResult x (BitVec.ofNat 8 ((s.readD x).toNat * 2 ^ ((s.readD y).toNat % 8))) s t) ∧
      (∀ imm, ∃ t, exec (.shlI x imm) s = .next t ∧ NzResult x (BitVec.ofNat 8 ((s.readD x).toNat * 2 ^ ((immByte imm).toNat % 8))) s t))

/-- Words with operation code 1010 decode to shr; for every destination but sr and both forms shr completes, x
becomes x divided by 2 to the power op2 mod 8, n and z describe it, and c, v, all other registers, pc and memory
are unchanged. Zero fill is the spec's own default (D8, log 7). (Destination sr: AluResultIntoStatusRegister.)
Ignoring bits 9:8 of format A is the spec's own decision D6 (log 14). That every immediate runs, those with bits
the row draws as zero included, is the spec's own decision D29 (log 19). The extension of the immediate to 8
bits is the spec's own decision D5 (log 13). That n is bit 7 is the spec's own decision D9 (log 16). That bits
7:4 of sr are kept is the spec's own decision D11 (log 15). [40_alu.md section 2 (shr); 92_eei_decisions.md D8
(SHR_FILL = zero, log 7); 30_encoding.md rule R63 with 92_eei_decisions.md D6 (bits 9:8, log 14); 30_encoding.md
rule R61 with 92_eei_decisions.md D29 (immediates, log 19); 92_eei_decisions.md D5 (immediate extension, log
13); 92_eei_decisions.md D9 (flag n, log 16); 10_state.md rule R25 with 92_eei_decisions.md D11 (upper sr bits,
log 15)] -/
def Obligations.ShrDividesAndSetsNz : Prop :=
  (∀ u x y, decodeWord (pictureA 0b1010#4 u x y) = .shrR x y) ∧
    (∀ x imm, decodeWord (wordIA 0b1010#4 x imm) = .shrI x imm) ∧
    (∀ (s : State) (x : DReg), x ≠ .sr →
      (∀ y, ∃ t, exec (.shrR x y) s = .next t ∧ NzResult x (BitVec.ofNat 8 ((s.readD x).toNat / 2 ^ ((s.readD y).toNat % 8))) s t) ∧
      (∀ imm, ∃ t, exec (.shrI x imm) s = .next t ∧ NzResult x (BitVec.ofNat 8 ((s.readD x).toNat / 2 ^ ((immByte imm).toNat % 8))) s t))

/-- Words with operation code 1100 decode to mov (mov gb, gb to its other name nop); for every destination, sr
included, and both forms mov completes, x becomes op2, and every other register (sr too, unless it is x), pc and
memory are unchanged. Ignoring bits 9:8 of format A is the spec's own decision D6 (log 14). The extension of the
immediate to 8 bits is the spec's own decision D5 (log 13). Which of the two names of a word the decoder answers
is the model's choice (log 23). [40_alu.md rule R87; 30_encoding.md rule R63 with 92_eei_decisions.md D6 (bits
9:8, log 14); 92_eei_decisions.md D5 (immediate extension, log 13); 30_encoding.md rule R69 (named forms, log
23)] -/
def Obligations.MovCopiesOperand : Prop :=
  (∀ u x y, decodeWord (pictureA 0b1100#4 u x y) = if x = .gb ∧ y = .gb then .nop else .movR x y) ∧
    (∀ x imm, decodeWord (wordIA 0b1100#4 x imm) = .movI x imm) ∧
    (∀ (s : State) (x : DReg),
      (∀ y, ∃ t, exec (.movR x y) s = .next t ∧ PlainResult x (s.readD y) s t) ∧
      (∀ imm, ∃ t, exec (.movI x imm) s = .next t ∧ PlainResult x (immByte imm) s t))

/-- Words with operation code 1101 decode to mvh; for every destination, sr included, and both forms mvh completes,
x becomes 64 * (op2 mod 4) + (x mod 64), and every other register (sr too, unless it is x), pc and memory are
unchanged. Ignoring bits 9:8 of format A is the spec's own decision D6 (log 14). That every immediate runs,
those with bits the row draws as zero included, is the spec's own decision D29 (log 19). The extension of the
immediate to 8 bits is the spec's own decision D5 (log 13). [40_alu.md rule R88; 30_encoding.md rule R63 with
92_eei_decisions.md D6 (bits 9:8, log 14); 30_encoding.md rule R61 with 92_eei_decisions.md D29 (immediates, log
19); 92_eei_decisions.md D5 (immediate extension, log 13)] -/
def Obligations.MvhReplacesTopTwoBits : Prop :=
  (∀ u x y, decodeWord (pictureA 0b1101#4 u x y) = .mvhR x y) ∧
    (∀ x imm, decodeWord (wordIA 0b1101#4 x imm) = .mvhI x imm) ∧
    (∀ (s : State) (x : DReg), 
      (∀ y, ∃ t, exec (.mvhR x y) s = .next t ∧ PlainResult x (BitVec.ofNat 8 ((s.readD y).toNat % 4 * 64 + (s.readD x).toNat % 64)) s t) ∧
      (∀ imm, ∃ t, exec (.mvhI x imm) s = .next t ∧ PlainResult x (BitVec.ofNat 8 ((immByte imm).toNat % 4 * 64 + (s.readD x).toNat % 64)) s t))

/-- Words with operation code 1110 decode to tsb; for every x, sr included, and both forms tsb completes, z becomes
the bit of x numbered op2 mod 8 and n the bit numbered (op2 / 8) mod 8, and c, v, the upper bits of sr, all
other registers, pc and memory are unchanged. Which bit n gets is the spec's own decision (D32, log 11).
Ignoring bits 9:8 of format A is the spec's own decision D6 (log 14). The extension of the immediate to 8 bits
is the spec's own decision D5 (log 13). That bits 7:4 of sr are kept is the spec's own decision D11 (log 15).
[40_alu.md section 2 (tsb); 92_eei_decisions.md D32 and 90_conflicts.md C5, C7 (log 11); 30_encoding.md rule R63
with 92_eei_decisions.md D6 (bits 9:8, log 14); 92_eei_decisions.md D5 (immediate extension, log 13);
10_state.md rule R25 with 92_eei_decisions.md D11 (upper sr bits, log 15)] -/
def Obligations.TsbCopiesTwoBitsToFlags : Prop :=
  (∀ u x y, decodeWord (pictureA 0b1110#4 u x y) = .tsbR x y) ∧
    (∀ x imm, decodeWord (wordIA 0b1110#4 x imm) = .tsbI x imm) ∧
    (∀ (s : State) (x : DReg), 
      (∀ y, ∃ t, exec (.tsbR x y) s = .next t ∧ TestResult x (s.readD y) s t) ∧
      (∀ imm, ∃ t, exec (.tsbI x imm) s = .next t ∧ TestResult x (immByte imm) s t))

/-- Words with operation code 1111 decode to seb; for every destination but sr and both forms seb completes, the bit
of x numbered op2 mod 8 becomes bit 3 of op2 and the others are kept, n and z describe the result, and c, v, all
other registers, pc and memory are unchanged. (Destination sr: AluResultIntoStatusRegister.) Ignoring bits 9:8
of format A is the spec's own decision D6 (log 14). That every immediate runs, those with bits the row draws as
zero included, is the spec's own decision D29 (log 19). The extension of the immediate to 8 bits is the spec's
own decision D5 (log 13). That n is bit 7 is the spec's own decision D9 (log 16). That bits 7:4 of sr are kept
is the spec's own decision D11 (log 15). [40_alu.md rule R91; 30_encoding.md rule R63 with 92_eei_decisions.md
D6 (bits 9:8, log 14); 30_encoding.md rule R61 with 92_eei_decisions.md D29 (immediates, log 19);
92_eei_decisions.md D5 (immediate extension, log 13); 92_eei_decisions.md D9 (flag n, log 16); 10_state.md rule
R25 with 92_eei_decisions.md D11 (upper sr bits, log 15)] -/
def Obligations.SebWritesOneBit : Prop :=
  (∀ u x y, decodeWord (pictureA 0b1111#4 u x y) = .sebR x y) ∧
    (∀ x imm, decodeWord (wordIA 0b1111#4 x imm) = .sebI x imm) ∧
    (∀ (s : State) (x : DReg), x ≠ .sr →
      (∀ y, ∃ t r, exec (.sebR x y) s = .next t ∧ NzResult x r s t ∧
        ∀ i < 8, r.getLsbD i =
          if i = (s.readD y).toNat % 8 then (s.readD y).getLsbD 3 else (s.readD x).getLsbD i) ∧
      (∀ imm, ∃ t r, exec (.sebI x imm) s = .next t ∧ NzResult x r s t ∧
        ∀ i < 8, r.getLsbD i =
          if i = (immByte imm).toNat % 8 then (immByte imm).getLsbD 3 else (s.readD x).getLsbD i))

/-- For add, adc, sub, sbc, and, or, xor, shl, shr, seb with destination sr, both forms, the instruction completes;
sr ends as the result with the affected flags written over it, or as the result alone; no other register, pc or
memory byte changes. Running the instruction with the order left free is the model's choice (log 6); the spec's
default refuses it. The flags are those of the operation's own statement (D9, D10, log 16). The extension of the
immediate to 8 bits is the spec's own decision D5 (log 13). [10_state.md rule R24 with 92_eei_decisions.md D12;
40_alu.md rule R74; log 6; 92_eei_decisions.md D10 (flags c and v, log 16); 92_eei_decisions.md D9 (flag n, log
16); 92_eei_decisions.md D5 (immediate extension, log 13)] -/
def Obligations.AluResultIntoStatusRegister : Prop :=
  ∀ s : State,
    (∀ y, StatusResult (aluAdd s.sr (s.readD y) (srC s.sr)) (exec (.addR .sr y) s) s) ∧
    (∀ imm, StatusResult (aluAdd s.sr (immByte imm) (srC s.sr)) (exec (.addI .sr imm) s) s) ∧
    (∀ y, StatusResult (aluAdc s.sr (s.readD y) (srC s.sr)) (exec (.adcR .sr y) s) s) ∧
    (∀ imm, StatusResult (aluAdc s.sr (immByte imm) (srC s.sr)) (exec (.adcI .sr imm) s) s) ∧
    (∀ y, StatusResult (aluSub s.sr (s.readD y) (srC s.sr)) (exec (.subR .sr y) s) s) ∧
    (∀ imm, StatusResult (aluSub s.sr (immByte imm) (srC s.sr)) (exec (.subI .sr imm) s) s) ∧
    (∀ y, StatusResult (aluSbc s.sr (s.readD y) (srC s.sr)) (exec (.sbcR .sr y) s) s) ∧
    (∀ imm, StatusResult (aluSbc s.sr (immByte imm) (srC s.sr)) (exec (.sbcI .sr imm) s) s) ∧
    (∀ y, StatusResult (aluAnd s.sr (s.readD y) (srC s.sr)) (exec (.andR .sr y) s) s) ∧
    (∀ imm, StatusResult (aluAnd s.sr (immByte imm) (srC s.sr)) (exec (.andI .sr imm) s) s) ∧
    (∀ y, StatusResult (aluOr s.sr (s.readD y) (srC s.sr)) (exec (.orR .sr y) s) s) ∧
    (∀ imm, StatusResult (aluOr s.sr (immByte imm) (srC s.sr)) (exec (.orI .sr imm) s) s) ∧
    (∀ y, StatusResult (aluXor s.sr (s.readD y) (srC s.sr)) (exec (.xorR .sr y) s) s) ∧
    (∀ imm, StatusResult (aluXor s.sr (immByte imm) (srC s.sr)) (exec (.xorI .sr imm) s) s) ∧
    (∀ y, StatusResult (aluShl s.sr (s.readD y) (srC s.sr)) (exec (.shlR .sr y) s) s) ∧
    (∀ imm, StatusResult (aluShl s.sr (immByte imm) (srC s.sr)) (exec (.shlI .sr imm) s) s) ∧
    (∀ y, StatusResult (aluShr s.sr (s.readD y) (srC s.sr)) (exec (.shrR .sr y) s) s) ∧
    (∀ imm, StatusResult (aluShr s.sr (immByte imm) (srC s.sr)) (exec (.shrI .sr imm) s) s) ∧
    (∀ y, StatusResult (aluSeb s.sr (s.readD y) (srC s.sr)) (exec (.sebR .sr y) s) s) ∧
    (∀ imm, StatusResult (aluSeb s.sr (immByte imm) (srC s.sr)) (exec (.sebI .sr imm) s) s)

/-- Both forms of the reserved code answer the same state (pc has been advanced by the step); under OP1011 = refuse
the operation is refused by name. The setting nop is the model's choice (log 5). [30_encoding.md rule R62 and
40_alu.md rule R86 with 92_eei_decisions.md D7; log 5] -/
def Obligations.Reserved1011RunsAsNoOperation : Prop :=
  (∀ (s : State) (x y : DReg), exec (.res1011R x y) s = .next s) ∧
    (∀ (s : State) (x : DReg) (imm : Imm6), exec (.res1011I x imm) s = .next s) ∧
    (∀ s : State, reserved1011 .refuse s = .refused .reservedAluOp1011)

/-- The word 0x3055 decodes to nop, nop answers the same state, and a step at that word answers the state with pc
advanced by 2 and nothing else changed. That the byte at the lower address is the first, more significant one is
the model's setting of INSN_BYTE_ORDER (the spec's own default D3; DESIGN CHOICE, log 1). [40_alu.md rule R92;
20_memory.md rule R34 with 92_eei_decisions.md D3 (byte order, log 1)] -/
def Obligations.NopOnlyAdvancesPc : Prop :=
  decodeWord 0x3055#16 = .nop ∧ (∀ s : State, exec .nop s = .next s) ∧
    (∀ s : State, s.wordAtPc = 0x3055#16 → step s = .next (s.setPc (s.pc + 2#16)))

/-- For every byte K and register x the two instructions complete in turn and leave x = K; every other register (sr
too, unless it is x), pc and memory are unchanged. The extension of the immediate to 8 bits is the spec's own
decision D5 (log 13). [40_alu.md rule R89 (derived); 92_eei_decisions.md D5 (immediate extension, log 13)] -/
def Obligations.MovThenMvhBuildsAnyByte : Prop :=
  ∀ (s : State) (x : DReg) (K : Byte), ∃ t u,
    exec (.movI x (K.extractLsb' 0 6)) s = .next t ∧
    exec (.mvhI x (0b0000#4 ++ K.extractLsb' 6 2)) t = .next u ∧ PlainResult x K s u

/-- add ge.l, gf.l then adc ge.h, gf.h complete in turn and leave ge = ge + gf modulo 65,536 with c set exactly when
the sum reaches 65,536; cmp ge.l, gf.l then cmc ge.h, gf.h complete in turn and leave c set exactly when ge >=
gf unsigned. Every register but ge (for the addition) and sr, pc and memory are unchanged. That c is bit 8 of
the sum is read from the spec's formulas (D10, DEDUCED, log 16). [10_state.md rule R15 (16-bit arithmetic a byte
at a time); 40_alu.md section 2 (add, adc, cmp, cmc: use on multi-byte values); 92_eei_decisions.md D10 (flags c
and v, log 16)] -/
def Obligations.ByteChainsWorkOnSixteenBits : Prop :=
  (∀ s : State, ∃ t u, exec (.addR .geL .gfL) s = .next t ∧ exec (.adcR .geH .gfH) t = .next u ∧
      u.ge = s.ge + s.gf ∧ (srC u.sr = true ↔ 65536 ≤ s.ge.toNat + s.gf.toNat) ∧
      OnlyRegistersChange [.geL, .geH, .sr] s u) ∧
    (∀ s : State, ∃ t u, exec (.cmpR .geL .gfL) s = .next t ∧ exec (.cmcR .geH .gfH) t = .next u ∧
      (srC u.sr = true ↔ s.gf.toNat ≤ s.ge.toNat) ∧ OnlyRegistersChange [.sr] s u)

/-- After cmp x, y or cmp x, i completes, condition c/geu holds exactly when x >= op2 unsigned, z/eq exactly when x
= op2, gu exactly when x > op2 unsigned, for the values before the instruction. [41_control.md rule R96 (names
and formulas of geu, eq, gu); 40_alu.md section 2 (cmp); 92_eei_decisions.md D10 (flag c, log 16);
92_eei_decisions.md D5 (immediate extension, log 13)] -/
def Obligations.UnsignedConditionsAfterCmp : Prop :=
  (∀ (s t : State) (x y : DReg), exec (.cmpR x y) s = .next t →
      UnsignedConditions (s.readD x) (s.readD y) t) ∧
    (∀ (s t : State) (x : DReg) (imm : Imm6), exec (.cmpI x imm) s = .next t →
      UnsignedConditions (s.readD x) (immByte imm) t)

/-- After cmp x, y or cmp x, i: with v clear, ge holds exactly when x >= op2 signed and g exactly when x > op2
signed; with v set, each is the opposite of that relation; under SIGNED_COND_READING = name both are the signed
relations always. The model evaluates the printed formula (the spec's own default D31, log 10), and the
definition of v is from general knowledge (D10, PRESUMED, log 16). [41_control.md rule R96 with
92_eei_decisions.md D31; 90_conflicts.md C6; log 10; 92_eei_decisions.md D10 (flag v, log 16);
92_eei_decisions.md D5 (immediate extension, log 13)] -/
def Obligations.SignedConditionsAfterCmp : Prop :=
  (∀ (s t : State) (x y : DReg), exec (.cmpR x y) s = .next t →
      SignedConditions (s.readD x) (s.readD y) t) ∧
    (∀ (s t : State) (x : DReg) (imm : Imm6), exec (.cmpI x imm) s = .next t →
      SignedConditions (s.readD x) (immByte imm) t)

/-- For every status byte with bits c = 3, v = 2, n = 1, z = 0 the conditions are c; v; n; z; (v ? c : !n) and not
z; v ? c : !n; c and not z; true. The formulas of g and ge are the spec's own choice (D31, log 10).
[41_control.md rule R96 with 92_eei_decisions.md D31; 30_encoding.md rule R57; log 10] -/
def Obligations.ConditionsReadTheFlagBits : Prop :=
  ∀ sr : Byte,
    condHolds .c sr = sr.getLsbD 3 ∧ condHolds .v sr = sr.getLsbD 2 ∧
    condHolds .n sr = sr.getLsbD 1 ∧ condHolds .z sr = sr.getLsbD 0 ∧
    condHolds .g sr = ((if sr.getLsbD 2 then sr.getLsbD 3 else !sr.getLsbD 1) && !sr.getLsbD 0) ∧
    condHolds .ge sr = (if sr.getLsbD 2 then sr.getLsbD 3 else !sr.getLsbD 1) ∧
    condHolds .gu sr = (sr.getLsbD 3 && !sr.getLsbD 0) ∧ condHolds .always sr = true

/-- Words 1101xxii nccciiii decode to jmp_; when the condition, inverted by the negate bit, holds, it completes with
pc = ((x & 0xFFFE) + 2*i) mod 65536 and nothing else changed; otherwise it completes with nothing changed. [R98] -/
def Obligations.JumpRegisterSetsPc : Prop :=
  (∀ r neg cc imm, decodeWord (wordC false (.reg r) neg cc imm) = .jmp r neg cc imm) ∧
    (∀ (s : State) (r : WReg) (neg : Bool) (cc : Cond) (imm : Imm6), Bool.xor (condHolds cc s.sr) neg = true →
      ∃ t, exec (.jmp r neg cc imm) s = .next t ∧ JumpResult (evenBelow (s.readW r) + 2 * imm.toInt) s t) ∧
    (∀ (s : State) (r : WReg) (neg : Bool) (cc : Cond) (imm : Imm6), Bool.xor (condHolds cc s.sr) neg = false →
      exec (.jmp r neg cc imm) s = .next s)

/-- Words 110010ii nccciiii decode to jmpr_; when taken it completes with pc = (pc + 2*i) mod 65536, pc on the right
being the next instruction's address, and nothing else changed; otherwise with nothing changed. [R99] -/
def Obligations.JumpRelativeSetsPc : Prop :=
  (∀ neg cc imm, decodeWord (wordC false .pc neg cc imm) = .jmpr neg cc imm) ∧
    (∀ (s : State) (neg : Bool) (cc : Cond) (imm : Imm6), Bool.xor (condHolds cc s.sr) neg = true →
      ∃ t, exec (.jmpr neg cc imm) s = .next t ∧ JumpResult (s.pc.toNat + 2 * imm.toInt) s t) ∧
    (∀ (s : State) (neg : Bool) (cc : Cond) (imm : Imm6), Bool.xor (condHolds cc s.sr) neg = false →
      exec (.jmpr neg cc imm) s = .next s)

/-- Words 110000ii nccciiii and 110001ii nccciiii decode to jmpbl_ and jmpbh_; when taken they complete with pc =
0x0040 + 2*i and 0x00C0 + 2*i and nothing else changed; otherwise with nothing changed. [R100; R101] -/
def Obligations.JumpBootloaderSetsPc : Prop :=
  (∀ neg cc imm, decodeWord (wordC false .bl neg cc imm) = .jmpbl neg cc imm) ∧
    (∀ (s : State) (neg : Bool) (cc : Cond) (imm : Imm6), Bool.xor (condHolds cc s.sr) neg = true →
      ∃ t, exec (.jmpbl neg cc imm) s = .next t ∧ JumpResult (64 + 2 * imm.toInt) s t) ∧
    (∀ (s : State) (neg : Bool) (cc : Cond) (imm : Imm6), Bool.xor (condHolds cc s.sr) neg = false →
      exec (.jmpbl neg cc imm) s = .next s) ∧
    (∀ neg cc imm, decodeWord (wordC false .bh neg cc imm) = .jmpbh neg cc imm) ∧
    (∀ (s : State) (neg : Bool) (cc : Cond) (imm : Imm6), Bool.xor (condHolds cc s.sr) neg = true →
      ∃ t, exec (.jmpbh neg cc imm) s = .next t ∧ JumpResult (192 + 2 * imm.toInt) s t) ∧
    (∀ (s : State) (neg : Bool) (cc : Cond) (imm : Imm6), Bool.xor (condHolds cc s.sr) neg = false →
      exec (.jmpbh neg cc imm) s = .next s)

/-- Words 1111xxii nccciiii decode to call_; when taken it completes with ra = the next instruction's address, pc =
((x & 0xFFFE) + 2*i) mod 65536, and no other register and no memory byte changed. [R102] -/
def Obligations.CallRegisterLinksAndSetsPc : Prop :=
  (∀ r neg cc imm, decodeWord (wordC true (.reg r) neg cc imm) = .call r neg cc imm) ∧
    (∀ (s : State) (r : WReg) (neg : Bool) (cc : Cond) (imm : Imm6), Bool.xor (condHolds cc s.sr) neg = true →
      ∃ t, exec (.call r neg cc imm) s = .next t ∧ CallResult (evenBelow (s.readW r) + 2 * imm.toInt) s t)

/-- Words 111010ii nccciiii decode to callr_; when taken it completes with ra = the next instruction's address, pc =
(that + 2*i) mod 65536, and no other register and no memory byte changed. [R103] -/
def Obligations.CallRelativeLinksAndSetsPc : Prop :=
  (∀ neg cc imm, decodeWord (wordC true .pc neg cc imm) = .callr neg cc imm) ∧
    (∀ (s : State) (neg : Bool) (cc : Cond) (imm : Imm6), Bool.xor (condHolds cc s.sr) neg = true →
      ∃ t, exec (.callr neg cc imm) s = .next t ∧ CallResult (s.pc.toNat + 2 * imm.toInt) s t)

/-- Words 111000ii nccciiii and 111001ii nccciiii decode to clbl_ and clbh_; when taken they complete with ra = the
next instruction's address, pc = 0x0040 + 2*i and 0x00C0 + 2*i, and no other register and no memory byte
changed. [R104; R105] -/
def Obligations.CallBootloaderLinksAndSetsPc : Prop :=
  (∀ neg cc imm, decodeWord (wordC true .bl neg cc imm) = .clbl neg cc imm) ∧
    (∀ (s : State) (neg : Bool) (cc : Cond) (imm : Imm6), Bool.xor (condHolds cc s.sr) neg = true →
      ∃ t, exec (.clbl neg cc imm) s = .next t ∧ CallResult (64 + 2 * imm.toInt) s t) ∧
    (∀ neg cc imm, decodeWord (wordC true .bh neg cc imm) = .clbh neg cc imm) ∧
    (∀ (s : State) (neg : Bool) (cc : Cond) (imm : Imm6), Bool.xor (condHolds cc s.sr) neg = true →
      ∃ t, exec (.clbh neg cc imm) s = .next t ∧ CallResult (192 + 2 * imm.toInt) s t)

/-- Words 110011ii nccciiii decode to ret_; when taken it completes with pc = ((ra & 0xFFFE) + 2*i) mod 65536, ra
and everything else unchanged; otherwise with nothing changed. That a non-zero immediate counts is the spec's
own decision (D28, log 19). [41_control.md section 2 (ret_); 92_eei_decisions.md D28 (log 19)] -/
def Obligations.ReturnJumpsThroughRa : Prop :=
  (∀ neg cc imm, decodeWord (wordC false .ra neg cc imm) = .ret neg cc imm) ∧
    (∀ (s : State) (neg : Bool) (cc : Cond) (imm : Imm6), Bool.xor (condHolds cc s.sr) neg = true →
      ∃ t, exec (.ret neg cc imm) s = .next t ∧ JumpResult (evenBelow s.ra + 2 * imm.toInt) s t) ∧
    (∀ (s : State) (neg : Bool) (cc : Cond) (imm : Imm6), Bool.xor (condHolds cc s.sr) neg = false →
      exec (.ret neg cc imm) s = .next s)

/-- Words 111011ii nccciiii decode to clret_; when taken it completes with pc = ((old ra & 0xFFFE) + 2*i) mod 65536
and ra = the next instruction's address, and no other register and no memory byte changed. Reading the base
before the link write is the spec's own decision (D14, log 18). [41_control.md rules R97 and R107 with
92_eei_decisions.md D14 (log 18)] -/
def Obligations.ClretExchangesPcAndRa : Prop :=
  (∀ neg cc imm, decodeWord (wordC true .ra neg cc imm) = .clret neg cc imm) ∧
    (∀ (s : State) (neg : Bool) (cc : Cond) (imm : Imm6), Bool.xor (condHolds cc s.sr) neg = true →
      ∃ t, exec (.clret neg cc imm) s = .next t ∧ CallResult (evenBelow s.ra + 2 * imm.toInt) s t)

/-- When the condition, inverted by the negate bit, is false, call_, callr_, clbl_, clbh_ and clret_ answer the same
state; and with neg = 1 and cc = 111 all ten control instructions do, whatever the state. That ra is not written
is the spec's own default (D13, log 8). [41_control.md rule R95 with 92_eei_decisions.md D13 (log 8);
41_control.md rule R108 (a) (derived)] -/
def Obligations.CallNotTakenWritesNothing : Prop :=
  (∀ (s : State) (r : WReg) (neg : Bool) (cc : Cond) (imm : Imm6), Bool.xor (condHolds cc s.sr) neg = false →
      exec (.call r neg cc imm) s = .next s ∧ exec (.callr neg cc imm) s = .next s ∧
      exec (.clbl neg cc imm) s = .next s ∧ exec (.clbh neg cc imm) s = .next s ∧
      exec (.clret neg cc imm) s = .next s) ∧
    (∀ (s : State) (r : WReg) (imm : Imm6),
      exec (.jmp r true .always imm) s = .next s ∧ exec (.jmpr true .always imm) s = .next s ∧
      exec (.jmpbl true .always imm) s = .next s ∧ exec (.jmpbh true .always imm) s = .next s ∧
      exec (.ret true .always imm) s = .next s ∧ exec (.call r true .always imm) s = .next s ∧
      exec (.callr true .always imm) s = .next s ∧ exec (.clbl true .always imm) s = .next s ∧
      exec (.clbh true .always imm) s = .next s ∧ exec (.clret true .always imm) s = .next s)

/-- Words 100mmmii xxxxiiii decode to ld with base gb, ge, gf, gg, gh and to lds, ldf, ldr with base sp, fp, pc; for
every base, target register (sr and the bytes of the base register included) and immediate, ld completes, the
target gets the byte at the address computed before the write, and no other register, no pc and no memory byte
changes. Which of the two names of a word the decoder answers is the model's choice (log 23). That the pc base
is the next instruction's address is the spec's own decision D15 (log 17). That the access succeeds at every
address rests on all memory being RAM, the spec's own default D20 (log 9). [42_load_store.md rule R110;
30_encoding.md rule R69 (named forms, log 23); 92_eei_decisions.md D15 (pc base, log 17); 92_eei_decisions.md
D20 (all memory RAM, log 9)] -/
def Obligations.LoadPutsByteInRegister : Prop :=
  (∀ base x imm, decodeWord (wordM false base x imm) =
      match base with
      | .sp => .lds x imm
      | .fp => .ldf x imm
      | .pc => .ldr x imm
      | .gb => .ld .gb x imm
      | .reg r => .ld (.reg r) x imm) ∧
    (∀ (s : State) (base : MBase) (x : DReg) (imm : Imm6),
      ∃ t, exec (.ld base x imm) s = .next t ∧ LoadResult x (dataAddr base imm s) s t)

/-- Words 100010ii xxxxiiii decode to ldr; it completes, the target gets the byte at (pc + i) mod 65536, pc being
the next instruction's address (the spec's own decision D15, log 17), and nothing else changes. That the access
succeeds at every address rests on all memory being RAM, the spec's own default D20 (log 9). [42_load_store.md
section 2 (ldr); 92_eei_decisions.md D15 (log 17); 92_eei_decisions.md D20 (all memory RAM, log 9)] -/
def Obligations.LoadRelativeReadsBesideTheCode : Prop :=
  (∀ x imm, decodeWord (wordM false .pc x imm) = .ldr x imm) ∧
    (∀ (s : State) (x : DReg) (imm : Imm6),
      ∃ t, exec (.ldr x imm) s = .next t ∧ LoadResult x (s.pc + immOffset imm) s t)

/-- Words 100000ii xxxxiiii and 100001ii xxxxiiii decode to lds and ldf; they complete, the target gets the byte at
(0x0100 + sp + i) mod 65536 and (0x0100 + fp + i) mod 65536, not confined to the stack page, and no other
register (sp, fp included), no pc and no memory byte changes. That the access succeeds at every address rests on
all memory being RAM, the spec's own default D20 (log 9). [42_load_store.md rules R112 and R113;
92_eei_decisions.md D20 (all memory RAM, log 9)] -/
def Obligations.StackAndFrameLoads : Prop :=
  (∀ x imm, decodeWord (wordM false .sp x imm) = .lds x imm) ∧
    (∀ x imm, decodeWord (wordM false .fp x imm) = .ldf x imm) ∧
    (∀ (s : State) (x : DReg) (imm : Imm6), ∃ t, exec (.lds x imm) s = .next t ∧
      LoadResult x (BitVec.ofInt 16 (256 + s.sp.toNat + imm.toInt)) s t) ∧
    (∀ (s : State) (x : DReg) (imm : Imm6), ∃ t, exec (.ldf x imm) s = .next t ∧
      LoadResult x (BitVec.ofInt 16 (256 + s.fp.toNat + imm.toInt)) s t)

/-- Words 101mmmii xxxxiiii decode to st with base pc, gb, ge, gf, gg, gh and to sts, stf with base sp, fp; for
every base, data register and immediate, st completes, the byte at the address becomes the register's byte, and
no other memory byte, no register and no pc changes. Which of the two names of a word the decoder answers is the
model's choice (log 23). That the pc base is the next instruction's address is the spec's own decision D15 (log
17). That the access succeeds at every address rests on all memory being RAM, the spec's own default D20 (log
9). [42_load_store.md rule R114; 30_encoding.md rule R69 (named forms, log 23); 92_eei_decisions.md D15 (pc
base, log 17); 92_eei_decisions.md D20 (all memory RAM, log 9)] -/
def Obligations.StorePutsRegisterInMemory : Prop :=
  (∀ base x imm, decodeWord (wordM true base x imm) =
      match base with
      | .sp => .sts x imm
      | .fp => .stf x imm
      | .pc => .st .pc x imm
      | .gb => .st .gb x imm
      | .reg r => .st (.reg r) x imm) ∧
    (∀ (s : State) (base : MBase) (x : DReg) (imm : Imm6),
      ∃ t, exec (.st base x imm) s = .next t ∧ StoreResult x (dataAddr base imm s) s t)

/-- Words 101000ii xxxxiiii and 101001ii xxxxiiii decode to sts and stf; they complete, the byte at (0x0100 + sp +
i) mod 65536 and (0x0100 + fp + i) mod 65536 becomes the register's byte, and no other memory byte, no register
(sp included) and no pc changes. That the access succeeds at every address rests on all memory being RAM, the
spec's own default D20 (log 9). [42_load_store.md rules R115 and R116; 92_eei_decisions.md D20 (all memory RAM,
log 9)] -/
def Obligations.StackAndFrameStores : Prop :=
  (∀ x imm, decodeWord (wordM true .sp x imm) = .sts x imm) ∧
    (∀ x imm, decodeWord (wordM true .fp x imm) = .stf x imm) ∧
    (∀ (s : State) (x : DReg) (imm : Imm6), ∃ t, exec (.sts x imm) s = .next t ∧
      StoreResult x (BitVec.ofInt 16 (256 + s.sp.toNat + imm.toInt)) s t) ∧
    (∀ (s : State) (x : DReg) (imm : Imm6), ∃ t, exec (.stf x imm) s = .next t ∧
      StoreResult x (BitVec.ofInt 16 (256 + s.fp.toNat + imm.toInt)) s t)

/-- After st completes, a following ld from any base completes; its target gets the byte stored if the two addresses
are the same, and the byte that stood there before the store otherwise. That memory is RAM and accesses are in
program order are the spec's own decisions (D20, D21, logs 9 and 22). [20_memory.md rules R31 and R43 with
92_eei_decisions.md D20, D21 (log 9, log 22)] -/
def Obligations.LoadReturnsLatestStore : Prop :=
  ∀ (s t : State) (base base' : MBase) (x y : DReg) (imm imm' : Imm6), exec (.st base x imm) s = .next t →
    ∃ u, exec (.ld base' y imm') t = .next u ∧
      u.readD y = if dataAddr base' imm' t = dataAddr base imm s then s.readD x
        else s.readByte (dataAddr base' imm' t)

/-- Whatever the registers and memory of the launch state, an even pc is accepted unchanged and an odd pc is refused
by name (the spec's own decision D23, log 20). [70_reset_and_hazards.md section 1 (RESET_PC) with
92_eei_decisions.md D23; log 20] -/
def Obligations.LaunchRefusesOddPc : Prop :=
  ∀ s : State, (s.pc.toNat % 2 = 0 → launch s = .next s) ∧
    (s.pc.toNat % 2 = 1 → launch s = .refused (.oddResetPc s.pc))

/-- For every map from addresses to region kinds: a load answers the byte on RAM and ROM and is refused by name on
device and absent addresses; a store lands on RAM and is refused by name elsewhere (the spec's own decision D20;
the model's map is all RAM, log 9). [92_eei_decisions.md D20; 20_memory.md rule R37; log 9] -/
def Obligations.RegionKindsOtherThanRamRefuse : Prop :=
  ∀ (kind : Word → RegionKind) (s : State) (a : Word) (v : Byte),
    (kind a = .ram → loadUnder kind s a = .ok (s.readByte a) ∧ storeUnder kind s a v = .ok (s.writeByte a v)) ∧
    (kind a = .rom → loadUnder kind s a = .ok (s.readByte a) ∧ storeUnder kind s a v = .error (.romWrite a)) ∧
    (kind a = .device → loadUnder kind s a = .error (.deviceAccess a) ∧
      storeUnder kind s a v = .error (.deviceAccess a)) ∧
    (kind a = .absent → loadUnder kind s a = .error (.absentAccess a) ∧
      storeUnder kind s a v = .error (.absentAccess a))

/-- The end of an ALU operation under SR_DEST_ORDER = refuse: with a result and flags and destination sr it is
refused by name; with any other destination, or only a result, or only flags, it answers the next state it
answers under either order. The model's own setting runs the instruction (log 6). [60_exceptions.md rule R121;
10_state.md rule R24 and 40_alu.md rule R74 with 92_eei_decisions.md D12; log 6] -/
def Obligations.StatusDestinationRefusedUnderRefuse : Prop :=
  (∀ (s : State) (r : Byte) (f : FlagWrite), commitUnder .refuse .sr (.both r f) s = .refused .srDestination) ∧
    (∀ (s : State) (x : DReg) (out : AluOut) (order : SrDestOrder), (x ≠ .sr ∨ ∀ r f, out ≠ .both r f) →
      ∃ t, commitUnder .refuse x out s = .next t ∧ commitUnder (.run order) x out s = .next t)
end

