-- ==== Sys2Proof/Laws/Decode.lean ====
section
/-! SUPPORT. Code tables are inverse to each other, and each field of an encoded word is the field put in
(rules R47 to R58). -/

namespace Sys2Proof

@[simp] theorem DReg.ofCode_code (r : DReg) : DReg.ofCode r.code = r := by cases r <;> rfl
@[simp] theorem DReg.code_ofCode (k : BitVec 4) : (DReg.ofCode k).code = k := by revert k; decide
@[simp] theorem MBase.ofCode_code (b : MBase) : MBase.ofCode b.code = b := by
  rcases b with _ | _ | _ | _ | r <;> first | rfl | (cases r <;> rfl)
@[simp] theorem MBase.code_ofCode (m : BitVec 3) : (MBase.ofCode m).code = m := by revert m; decide
@[simp] theorem CBase.ofCode_code (b : CBase) : CBase.ofCode b.code = b := by
  rcases b with _ | _ | _ | _ | r <;> first | rfl | (cases r <;> rfl)
@[simp] theorem CBase.code_ofCode (m : BitVec 3) : (CBase.ofCode m).code = m := by revert m; decide
@[simp] theorem Cond.ofCode_code (cc : Cond) : Cond.ofCode cc.code = cc := by cases cc <;> rfl
@[simp] theorem Cond.code_ofCode (k : BitVec 3) : (Cond.ofCode k).code = k := by revert k; decide

section PictureA
variable (o : BitVec 4) (u : BitVec 2) (x y : DReg)

@[simp] theorem fieldFormat_pictureA : fieldFormat (pictureA o u x y) = 0#2 := by
  apply BitVec.eq_of_getLsbD_eq; intro i hi
  interval_cases i <;>
    simp only [fieldFormat, pictureA, BitVec.getLsbD_extractLsb', BitVec.getLsbD_append] <;> simp
@[simp] theorem fieldOp_pictureA : fieldOp (pictureA o u x y) = o := by
  apply BitVec.eq_of_getLsbD_eq; intro i hi
  interval_cases i <;>
    simp only [fieldOp, pictureA, BitVec.getLsbD_extractLsb', BitVec.getLsbD_append] <;> simp
@[simp] theorem fieldX_pictureA : fieldX (pictureA o u x y) = x.code := by
  apply BitVec.eq_of_getLsbD_eq; intro i hi
  interval_cases i <;>
    simp only [fieldX, pictureA, BitVec.getLsbD_extractLsb', BitVec.getLsbD_append] <;> simp
@[simp] theorem fieldY_pictureA : fieldY (pictureA o u x y) = y.code := by
  apply BitVec.eq_of_getLsbD_eq; intro i hi
  interval_cases i <;>
    simp only [fieldY, pictureA, BitVec.getLsbD_extractLsb', BitVec.getLsbD_append] <;> simp

end PictureA

section WordIA
variable (o : BitVec 4) (x : DReg) (imm : Imm6)

@[simp] theorem fieldFormat_wordIA : fieldFormat (wordIA o x imm) = 1#2 := by
  apply BitVec.eq_of_getLsbD_eq; intro i hi
  interval_cases i <;>
    simp only [fieldFormat, wordIA, BitVec.getLsbD_extractLsb', BitVec.getLsbD_append] <;> simp
@[simp] theorem fieldOp_wordIA : fieldOp (wordIA o x imm) = o := by
  apply BitVec.eq_of_getLsbD_eq; intro i hi
  interval_cases i <;>
    simp only [fieldOp, wordIA, BitVec.getLsbD_extractLsb', BitVec.getLsbD_append] <;> simp
@[simp] theorem fieldX_wordIA : fieldX (wordIA o x imm) = x.code := by
  apply BitVec.eq_of_getLsbD_eq; intro i hi
  interval_cases i <;>
    simp only [fieldX, wordIA, BitVec.getLsbD_extractLsb', BitVec.getLsbD_append] <;> simp
@[simp] theorem fieldImm_wordIA : fieldImm (wordIA o x imm) = imm := by
  apply BitVec.eq_of_getLsbD_eq; intro i hi
  interval_cases i <;>
    simp only [fieldImm, wordIA, BitVec.getLsbD_extractLsb', BitVec.getLsbD_append] <;> simp

end WordIA

section WordM
variable (st : Bool) (base : MBase) (x : DReg) (imm : Imm6)

@[simp] theorem fieldFormat_wordM : fieldFormat (wordM st base x imm) = 2#2 := by
  apply BitVec.eq_of_getLsbD_eq; intro i hi
  interval_cases i <;>
    simp only [fieldFormat, wordM, BitVec.getLsbD_extractLsb', BitVec.getLsbD_append] <;> simp
@[simp] theorem fieldS_wordM : fieldS (wordM st base x imm) = st := by
  simp only [fieldS, wordM, BitVec.getLsbD_append]; simp
@[simp] theorem fieldM_wordM : fieldM (wordM st base x imm) = base.code := by
  apply BitVec.eq_of_getLsbD_eq; intro i hi
  interval_cases i <;>
    simp only [fieldM, wordM, BitVec.getLsbD_extractLsb', BitVec.getLsbD_append] <;> simp
@[simp] theorem fieldX_wordM : fieldX (wordM st base x imm) = x.code := by
  apply BitVec.eq_of_getLsbD_eq; intro i hi
  interval_cases i <;>
    simp only [fieldX, wordM, BitVec.getLsbD_extractLsb', BitVec.getLsbD_append] <;> simp
@[simp] theorem fieldImm_wordM : fieldImm (wordM st base x imm) = imm := by
  apply BitVec.eq_of_getLsbD_eq; intro i hi
  interval_cases i <;>
    simp only [fieldImm, wordM, BitVec.getLsbD_extractLsb', BitVec.getLsbD_append] <;> simp

end WordM

section WordC
variable (sv : Bool) (base : CBase) (neg : Bool) (cc : Cond) (imm : Imm6)

@[simp] theorem fieldFormat_wordC : fieldFormat (wordC sv base neg cc imm) = 3#2 := by
  apply BitVec.eq_of_getLsbD_eq; intro i hi
  interval_cases i <;>
    simp only [fieldFormat, wordC, BitVec.getLsbD_extractLsb', BitVec.getLsbD_append] <;> simp
@[simp] theorem fieldS_wordC : fieldS (wordC sv base neg cc imm) = sv := by
  simp only [fieldS, wordC, BitVec.getLsbD_append]; simp
@[simp] theorem fieldM_wordC : fieldM (wordC sv base neg cc imm) = base.code := by
  apply BitVec.eq_of_getLsbD_eq; intro i hi
  interval_cases i <;>
    simp only [fieldM, wordC, BitVec.getLsbD_extractLsb', BitVec.getLsbD_append] <;> simp
@[simp] theorem fieldNeg_wordC : fieldNeg (wordC sv base neg cc imm) = neg := by
  simp only [fieldNeg, wordC, BitVec.getLsbD_append]; simp
@[simp] theorem fieldCc_wordC : fieldCc (wordC sv base neg cc imm) = cc.code := by
  apply BitVec.eq_of_getLsbD_eq; intro i hi
  interval_cases i <;>
    simp only [fieldCc, wordC, BitVec.getLsbD_extractLsb', BitVec.getLsbD_append] <;> simp
@[simp] theorem fieldImm_wordC : fieldImm (wordC sv base neg cc imm) = imm := by
  apply BitVec.eq_of_getLsbD_eq; intro i hi
  interval_cases i <;>
    simp only [fieldImm, wordC, BitVec.getLsbD_extractLsb', BitVec.getLsbD_append] <;> simp

end WordC

/-! What the decoder reads from each format's picture (R59). -/

theorem decodeWord_pictureA (o : BitVec 4) (u : BitVec 2) (x y : DReg) :
    decodeWord (pictureA o u x y) = decodeA o x y := by simp [decodeWord]

theorem decodeWord_wordA (o : BitVec 4) (x y : DReg) : decodeWord (wordA o x y) = decodeA o x y :=
  decodeWord_pictureA o _ x y

theorem decodeWord_wordIA (o : BitVec 4) (x : DReg) (imm : Imm6) :
    decodeWord (wordIA o x imm) = decodeIA o x imm := by simp [decodeWord]

theorem decodeWord_load (base : MBase) (x : DReg) (imm : Imm6) :
    decodeWord (wordM false base x imm) = decodeLoad base x imm := by simp [decodeWord]

theorem decodeWord_store (base : MBase) (x : DReg) (imm : Imm6) :
    decodeWord (wordM true base x imm) = decodeStore base x imm := by simp [decodeWord]

theorem decodeWord_jump (base : CBase) (neg : Bool) (cc : Cond) (imm : Imm6) :
    decodeWord (wordC false base neg cc imm) = decodeJump base neg cc imm := by simp [decodeWord]

theorem decodeWord_call (base : CBase) (neg : Bool) (cc : Cond) (imm : Imm6) :
    decodeWord (wordC true base neg cc imm) = decodeCall base neg cc imm := by simp [decodeWord]

/-- The two bytes of a word, put back together in either instruction byte order (R34). -/
@[simp] theorem wordOfBytes_of_word (order : InsnByteOrder) (w : Word) :
    wordOfBytes order (lowAddressByte order w) (highAddressByte order w) = w := by
  apply BitVec.eq_of_getLsbD_eq; intro i hi
  cases order <;>
    simp only [wordOfBytes, lowAddressByte, highAddressByte, BitVec.getLsbD_append,
      BitVec.getLsbD_extractLsb'] <;>
    (by_cases h : i < 8
     · simp [h]
     · have : 8 + (i - 8) = i := by omega
       simp [h, this]; omega)

/-- The decoder reads back the bytes of a word, and leaves what follows (R34, R46). -/
theorem decodeBytes_bytesOfWord (w : Word) (rest : List Byte) :
    decodeBytes (bytesOfWord w ++ rest) = .ok (decodeWord w, rest) := by
  simp [decodeBytes, bytesOfWord]

/-- A 16-bit table word decodes as the word itself. -/
theorem decodeTableWord_eq (nbits w : Nat) :
    decodeTableWord nbits w = some (decodeWord (tableWord nbits w)) := by
  have h := decodeBytes_bytesOfWord (tableWord nbits w) []
  rw [List.append_nil] at h
  simp [decodeTableWord, h]

/-! A word is the picture of its own fields (R47 to R52); format A loses bits 9:8 (R63, D6; log 14). -/

theorem wordA_of_fields (w : Word) (h : fieldFormat w = 0#2) :
    wordA (fieldOp w) (DReg.ofCode (fieldX w)) (DReg.ofCode (fieldY w)) = w &&& 0xFCFF#16 := by
  have e0 : w.getLsbD 14 = false := by simpa [fieldFormat] using congrArg (fun v => v.getLsbD 0) h
  have e1 : w.getLsbD 15 = false := by simpa [fieldFormat] using congrArg (fun v => v.getLsbD 1) h
  clear h
  apply BitVec.eq_of_getLsbD_eq; intro i hi
  interval_cases i <;>
    simp only [wordA, pictureA, fieldOp, fieldX, fieldY, DReg.code_ofCode, BitVec.getLsbD_append,
      BitVec.getLsbD_and, BitVec.getLsbD_extractLsb'] <;> simp_all

theorem wordIA_of_fields (w : Word) (h : fieldFormat w = 1#2) :
    wordIA (fieldOp w) (DReg.ofCode (fieldX w)) (fieldImm w) = w := by
  have e0 : w.getLsbD 14 = true := by simpa [fieldFormat] using congrArg (fun v => v.getLsbD 0) h
  have e1 : w.getLsbD 15 = false := by simpa [fieldFormat] using congrArg (fun v => v.getLsbD 1) h
  clear h
  apply BitVec.eq_of_getLsbD_eq; intro i hi
  interval_cases i <;>
    simp only [wordIA, fieldOp, fieldX, fieldImm, DReg.code_ofCode, BitVec.getLsbD_append,
      BitVec.getLsbD_extractLsb'] <;> simp_all

theorem wordM_of_fields (w : Word) (h : fieldFormat w = 2#2) :
    wordM (fieldS w) (MBase.ofCode (fieldM w)) (DReg.ofCode (fieldX w)) (fieldImm w) = w := by
  have e0 : w.getLsbD 14 = false := by simpa [fieldFormat] using congrArg (fun v => v.getLsbD 0) h
  have e1 : w.getLsbD 15 = true := by simpa [fieldFormat] using congrArg (fun v => v.getLsbD 1) h
  clear h
  apply BitVec.eq_of_getLsbD_eq; intro i hi
  interval_cases i <;>
    simp only [wordM, fieldS, fieldM, fieldX, fieldImm, MBase.code_ofCode, DReg.code_ofCode,
      BitVec.getLsbD_append, BitVec.getLsbD_extractLsb'] <;> simp_all

theorem wordC_of_fields (w : Word) (h : fieldFormat w = 3#2) :
    wordC (fieldS w) (CBase.ofCode (fieldM w)) (fieldNeg w) (Cond.ofCode (fieldCc w)) (fieldImm w) = w := by
  have e0 : w.getLsbD 14 = true := by simpa [fieldFormat] using congrArg (fun v => v.getLsbD 0) h
  have e1 : w.getLsbD 15 = true := by simpa [fieldFormat] using congrArg (fun v => v.getLsbD 1) h
  clear h
  apply BitVec.eq_of_getLsbD_eq; intro i hi
  interval_cases i <;>
    simp only [wordC, fieldS, fieldM, fieldNeg, fieldCc, fieldImm, CBase.code_ofCode, Cond.code_ofCode,
      BitVec.getLsbD_append, BitVec.getLsbD_extractLsb'] <;> simp_all

/-- The format field, as a number (R47). -/
theorem fieldFormat_toNat (w : Word) : (fieldFormat w).toNat = w.toNat / 16384 := by
  have := w.isLt
  simp [fieldFormat, BitVec.extractLsb'_toNat, Nat.shiftRight_eq_div_pow]; omega

/-- The operation field, as a number (R48, R49). -/
theorem fieldOp_toNat (w : Word) : (fieldOp w).toNat = w.toNat / 1024 % 16 := by
  simp [fieldOp, BitVec.extractLsb'_toNat, Nat.shiftRight_eq_div_pow]

end Sys2Proof
end

