-- ==== Sys2Proof/Laws/State.lean ====
section
/-! SUPPORT. One lemma per field per state update, true by rfl, so that no later proof unfolds a record update. -/

namespace Sys2Proof.Machine

variable (s : State)

@[simp] theorem State.ra_setPc (v : Word) : (s.setPc v).ra = s.ra := rfl
@[simp] theorem State.sr_setPc (v : Word) : (s.setPc v).sr = s.sr := rfl
@[simp] theorem State.sp_setPc (v : Word) : (s.setPc v).sp = s.sp := rfl
@[simp] theorem State.fp_setPc (v : Word) : (s.setPc v).fp = s.fp := rfl
@[simp] theorem State.gb_setPc (v : Word) : (s.setPc v).gb = s.gb := rfl
@[simp] theorem State.gc_setPc (v : Word) : (s.setPc v).gc = s.gc := rfl
@[simp] theorem State.gd_setPc (v : Word) : (s.setPc v).gd = s.gd := rfl
@[simp] theorem State.ge_setPc (v : Word) : (s.setPc v).ge = s.ge := rfl
@[simp] theorem State.gf_setPc (v : Word) : (s.setPc v).gf = s.gf := rfl
@[simp] theorem State.gg_setPc (v : Word) : (s.setPc v).gg = s.gg := rfl
@[simp] theorem State.gh_setPc (v : Word) : (s.setPc v).gh = s.gh := rfl
@[simp] theorem State.pc_setPc (v : Word) : (s.setPc v).pc = v := rfl
@[simp] theorem State.mem_setPc (v : Word) : (s.setPc v).mem = s.mem := rfl

@[simp] theorem State.ra_setRa (v : Word) : (s.setRa v).ra = v := rfl
@[simp] theorem State.sr_setRa (v : Word) : (s.setRa v).sr = s.sr := rfl
@[simp] theorem State.sp_setRa (v : Word) : (s.setRa v).sp = s.sp := rfl
@[simp] theorem State.fp_setRa (v : Word) : (s.setRa v).fp = s.fp := rfl
@[simp] theorem State.gb_setRa (v : Word) : (s.setRa v).gb = s.gb := rfl
@[simp] theorem State.gc_setRa (v : Word) : (s.setRa v).gc = s.gc := rfl
@[simp] theorem State.gd_setRa (v : Word) : (s.setRa v).gd = s.gd := rfl
@[simp] theorem State.ge_setRa (v : Word) : (s.setRa v).ge = s.ge := rfl
@[simp] theorem State.gf_setRa (v : Word) : (s.setRa v).gf = s.gf := rfl
@[simp] theorem State.gg_setRa (v : Word) : (s.setRa v).gg = s.gg := rfl
@[simp] theorem State.gh_setRa (v : Word) : (s.setRa v).gh = s.gh := rfl
@[simp] theorem State.pc_setRa (v : Word) : (s.setRa v).pc = s.pc := rfl
@[simp] theorem State.mem_setRa (v : Word) : (s.setRa v).mem = s.mem := rfl

@[simp] theorem State.ra_setSr (v : Byte) : (s.setSr v).ra = s.ra := rfl
@[simp] theorem State.sr_setSr (v : Byte) : (s.setSr v).sr = v := rfl
@[simp] theorem State.sp_setSr (v : Byte) : (s.setSr v).sp = s.sp := rfl
@[simp] theorem State.fp_setSr (v : Byte) : (s.setSr v).fp = s.fp := rfl
@[simp] theorem State.gb_setSr (v : Byte) : (s.setSr v).gb = s.gb := rfl
@[simp] theorem State.gc_setSr (v : Byte) : (s.setSr v).gc = s.gc := rfl
@[simp] theorem State.gd_setSr (v : Byte) : (s.setSr v).gd = s.gd := rfl
@[simp] theorem State.ge_setSr (v : Byte) : (s.setSr v).ge = s.ge := rfl
@[simp] theorem State.gf_setSr (v : Byte) : (s.setSr v).gf = s.gf := rfl
@[simp] theorem State.gg_setSr (v : Byte) : (s.setSr v).gg = s.gg := rfl
@[simp] theorem State.gh_setSr (v : Byte) : (s.setSr v).gh = s.gh := rfl
@[simp] theorem State.pc_setSr (v : Byte) : (s.setSr v).pc = s.pc := rfl
@[simp] theorem State.mem_setSr (v : Byte) : (s.setSr v).mem = s.mem := rfl

@[simp] theorem State.ra_setMem (v : Memory) : (s.setMem v).ra = s.ra := rfl
@[simp] theorem State.sr_setMem (v : Memory) : (s.setMem v).sr = s.sr := rfl
@[simp] theorem State.sp_setMem (v : Memory) : (s.setMem v).sp = s.sp := rfl
@[simp] theorem State.fp_setMem (v : Memory) : (s.setMem v).fp = s.fp := rfl
@[simp] theorem State.gb_setMem (v : Memory) : (s.setMem v).gb = s.gb := rfl
@[simp] theorem State.gc_setMem (v : Memory) : (s.setMem v).gc = s.gc := rfl
@[simp] theorem State.gd_setMem (v : Memory) : (s.setMem v).gd = s.gd := rfl
@[simp] theorem State.ge_setMem (v : Memory) : (s.setMem v).ge = s.ge := rfl
@[simp] theorem State.gf_setMem (v : Memory) : (s.setMem v).gf = s.gf := rfl
@[simp] theorem State.gg_setMem (v : Memory) : (s.setMem v).gg = s.gg := rfl
@[simp] theorem State.gh_setMem (v : Memory) : (s.setMem v).gh = s.gh := rfl
@[simp] theorem State.pc_setMem (v : Memory) : (s.setMem v).pc = s.pc := rfl
@[simp] theorem State.mem_setMem (v : Memory) : (s.setMem v).mem = v := rfl

/-- A register write changes neither `pc` nor memory. -/
@[simp] theorem State.pc_writeD (k : DReg) (v : Byte) : (s.writeD k v).pc = s.pc := by cases k <;> rfl
@[simp] theorem State.mem_writeD (k : DReg) (v : Byte) : (s.writeD k v).mem = s.mem := by cases k <;> rfl
/-- `sr` changes only by a write that names it. -/
theorem State.sr_writeD_of_ne {k : DReg} (h : k ≠ .sr) (v : Byte) : (s.writeD k v).sr = s.sr := by
  cases k <;> first | rfl | exact absurd rfl h
@[simp] theorem State.writeD_sr (v : Byte) : s.writeD .sr v = s.setSr v := rfl

@[simp] theorem State.ra_writeByte (a : Word) (v : Byte) : (s.writeByte a v).ra = s.ra := rfl
@[simp] theorem State.sr_writeByte (a : Word) (v : Byte) : (s.writeByte a v).sr = s.sr := rfl
@[simp] theorem State.sp_writeByte (a : Word) (v : Byte) : (s.writeByte a v).sp = s.sp := rfl
@[simp] theorem State.fp_writeByte (a : Word) (v : Byte) : (s.writeByte a v).fp = s.fp := rfl
@[simp] theorem State.gb_writeByte (a : Word) (v : Byte) : (s.writeByte a v).gb = s.gb := rfl
@[simp] theorem State.gc_writeByte (a : Word) (v : Byte) : (s.writeByte a v).gc = s.gc := rfl
@[simp] theorem State.gd_writeByte (a : Word) (v : Byte) : (s.writeByte a v).gd = s.gd := rfl
@[simp] theorem State.ge_writeByte (a : Word) (v : Byte) : (s.writeByte a v).ge = s.ge := rfl
@[simp] theorem State.gf_writeByte (a : Word) (v : Byte) : (s.writeByte a v).gf = s.gf := rfl
@[simp] theorem State.gg_writeByte (a : Word) (v : Byte) : (s.writeByte a v).gg = s.gg := rfl
@[simp] theorem State.gh_writeByte (a : Word) (v : Byte) : (s.writeByte a v).gh = s.gh := rfl
@[simp] theorem State.pc_writeByte (a : Word) (v : Byte) : (s.writeByte a v).pc = s.pc := rfl
@[simp] theorem State.mem_writeByte (a : Word) (v : Byte) : (s.writeByte a v).mem = Memory.write s.mem a.toNat v := rfl

/-- Moving `pc` twice keeps the last move. -/
@[simp] theorem State.setPc_setPc (v w : Word) : (s.setPc v).setPc w = s.setPc w := rfl
@[simp] theorem State.setPc_self : s.setPc s.pc = s := rfl
@[simp] theorem State.setSr_self : s.setSr s.sr = s := rfl

/-- Two states with the same fields are the same state. -/
theorem State.ext_fields {s t : State} (h1 : t.ra = s.ra) (h2 : t.sr = s.sr) (h3 : t.sp = s.sp)
    (h4 : t.fp = s.fp) (h5 : t.gb = s.gb) (h6 : t.gc = s.gc) (h7 : t.gd = s.gd) (h8 : t.ge = s.ge)
    (h9 : t.gf = s.gf) (h10 : t.gg = s.gg) (h11 : t.gh = s.gh) (h12 : t.pc = s.pc)
    (h13 : t.mem = s.mem) : t = s := by
  cases s; cases t; simp_all

end Sys2Proof.Machine
end

