-- ==== Sys2Proof/Laws/Memory.lean ====
section
/-! SUPPORT. Memory: a written byte is read back, every other byte is unchanged, the canonical form is kept (rules R31, R32). -/

namespace Sys2Proof.Machine

@[simp] theorem Memory.read_write_self (m : Memory) (a : Nat) (v : Byte) :
    Memory.read (Memory.write m a v) a = some v := by
  induction m with
  | nil => simp [Memory.write, Memory.read]
  | cons e rest ih =>
    obtain ⟨k, b⟩ := e
    simp only [Memory.write]
    split
    · simp [Memory.read]
    · split
      · simp [Memory.read]
      · rename_i h1 h2
        simp [Memory.read, ih, Ne.symm h2]

theorem Memory.read_write_of_ne (m : Memory) {a c : Nat} (h : c ≠ a) (v : Byte) :
    Memory.read (Memory.write m a v) c = Memory.read m c := by
  induction m with
  | nil => simp [Memory.write, Memory.read, Ne.symm h]
  | cons e rest ih =>
    obtain ⟨k, b⟩ := e
    simp only [Memory.write]
    split
    · simp [Memory.read, Ne.symm h]
    · split
      · rename_i h1 h2
        subst h2
        simp [Memory.read, Ne.symm h]
      · simp [Memory.read, ih]

/-- A write inside the address space keeps the canonical form, from any lower bound at or below its address. -/
theorem Memory.wfFrom_write (m : Memory) (lo a : Nat) (v : Byte) (hm : Memory.wfFrom lo m = true)
    (hlo : lo ≤ a) (ha : a < 65536) : Memory.wfFrom lo (Memory.write m a v) = true := by
  induction m generalizing lo with
  | nil => simp [Memory.write, Memory.wfFrom, hlo, ha]
  | cons e rest ih =>
    obtain ⟨k, b⟩ := e
    simp only [Memory.wfFrom, Bool.and_eq_true, decide_eq_true_eq] at hm
    obtain ⟨⟨h1, h2⟩, h3⟩ := hm
    simp only [Memory.write]
    split
    · simp only [Memory.wfFrom, Bool.and_eq_true, decide_eq_true_eq]
      exact ⟨⟨hlo, ha⟩, ⟨by omega, h2⟩, h3⟩
    · split
      · rename_i h4 h5
        subst h5
        simp [Memory.wfFrom, hlo, ha, h3]
      · simp only [Memory.wfFrom, Bool.and_eq_true, decide_eq_true_eq]
        exact ⟨⟨h1, h2⟩, ih (k + 1) h3 (by omega)⟩

/-- A write at a 16-bit address keeps the canonical form. -/
theorem Memory.wf_write {m : Memory} (h : Memory.wf m = true) (a : Word) (v : Byte) :
    Memory.wf (Memory.write m a.toNat v) = true :=
  Memory.wfFrom_write m 0 a.toNat v h (Nat.zero_le _) a.isLt

variable (s : State)

/-- A load returns the byte last stored to its address (R31, R43). -/
@[simp] theorem State.readByte_writeByte_self (a : Word) (v : Byte) :
    (s.writeByte a v).readByte a = v := by
  simp [State.readByte]

/-- A store changes no other byte (R32). -/
theorem State.readByte_writeByte_of_ne {a b : Word} (h : b ≠ a) (v : Byte) :
    (s.writeByte a v).readByte b = s.readByte b := by
  have : b.toNat ≠ a.toNat := fun e => h (BitVec.eq_of_toNat_eq e)
  simp [State.readByte, Memory.read_write_of_ne _ this]

/-- Equal memories read the same. -/
theorem State.readByte_congr {s t : State} (h : t.mem = s.mem) (a : Word) :
    t.readByte a = s.readByte a := by
  simp [State.readByte, h]

@[simp] theorem State.readByte_setPc (t a : Word) : (s.setPc t).readByte a = s.readByte a := rfl
@[simp] theorem State.readByte_setRa (t a : Word) : (s.setRa t).readByte a = s.readByte a := rfl
@[simp] theorem State.readByte_setSr (v : Byte) (a : Word) : (s.setSr v).readByte a = s.readByte a := rfl
@[simp] theorem State.readByte_writeD (k : DReg) (v : Byte) (a : Word) :
    (s.writeD k v).readByte a = s.readByte a := State.readByte_congr (State.mem_writeD s k v) a

/-- Under the model's MEM_REGION_KIND every load answers the byte (R31; log 9). -/
@[simp] theorem State.load_eq (a : Word) : s.load a = .ok (s.readByte a) := rfl

/-- Under the model's MEM_REGION_KIND every store lands (R32; log 9). -/
@[simp] theorem State.store_eq (a : Word) (v : Byte) : s.store a v = .ok (s.writeByte a v) := rfl

/-- A fetch answers the two bytes, byte 1 from the lower address (R34; log 1). -/
@[simp] theorem State.fetch_eq (a : Word) :
    s.fetch a = .ok (s.readByte a ++ s.readByte (a + 1#16)) := rfl

/-- A placed word is fetched (R34; log 24). -/
theorem State.fetch_placeWord (a w : Word) : (s.placeWord a w).fetch a = .ok w := by
  have h : a ≠ a + 1#16 := by
    intro e
    have := congrArg BitVec.toNat e
    simp only [BitVec.toNat_add, BitVec.toNat_ofNat] at this
    have := a.isLt
    omega
  have hw : w.extractLsb' 8 8 ++ w.extractLsb' 0 8 = w := by
    apply BitVec.eq_of_getLsbD_eq; intro i hi
    simp only [BitVec.getLsbD_append, BitVec.getLsbD_extractLsb']
    by_cases h8 : i < 8
    · simp [h8]
    · have : 8 + (i - 8) = i := by omega
      simp [h8, this]; omega
  simp only [State.placeWord, State.fetch_eq, State.readByte_writeByte_self,
    State.readByte_writeByte_of_ne _ h]
  exact congrArg Except.ok hw

end Sys2Proof.Machine
end

