-- ==== Sys2Proof/Laws/Registers.lean ====
section
/-! SUPPORT. Register bytes: a write is read back, every other byte register is unchanged (rules R15, R16). -/

namespace Sys2Proof.Machine

@[simp] theorem loByte_append (h l : Byte) : loByte (h ++ l) = l := by
  apply BitVec.eq_of_getLsbD_eq; intro i hi
  simp only [loByte, BitVec.getLsbD_append, BitVec.getLsbD_extractLsb']
  simp [hi]

@[simp] theorem hiByte_append (h l : Byte) : hiByte (h ++ l) = h := by
  apply BitVec.eq_of_getLsbD_eq; intro i hi
  simp only [hiByte, BitVec.getLsbD_append, BitVec.getLsbD_extractLsb']
  simp [hi]

@[simp] theorem loByte_setLoByte (r : Word) (v : Byte) : loByte (setLoByte r v) = v :=
  loByte_append _ _

@[simp] theorem hiByte_setLoByte (r : Word) (v : Byte) : hiByte (setLoByte r v) = hiByte r :=
  hiByte_append _ _

@[simp] theorem loByte_setHiByte (r : Word) (v : Byte) : loByte (setHiByte r v) = loByte r :=
  loByte_append _ _

@[simp] theorem hiByte_setHiByte (r : Word) (v : Byte) : hiByte (setHiByte r v) = v :=
  hiByte_append _ _

/-- A 16-bit register is its high byte followed by its low byte (R15). -/
theorem hiByte_append_loByte (r : Word) : hiByte r ++ loByte r = r := by
  apply BitVec.eq_of_getLsbD_eq; intro i hi
  simp only [hiByte, loByte, BitVec.getLsbD_append, BitVec.getLsbD_extractLsb']
  by_cases h : i < 8
  · simp [h]
  · have : 8 + (i - 8) = i := by omega
    simp [h, this]; omega

variable (s : State)

/-- A register write is read back (R16). -/
@[simp] theorem State.readD_writeD_self (k : DReg) (v : Byte) : (s.writeD k v).readD k = v := by
  cases k <;> simp [State.writeD, State.readD]

/-- A register write leaves every other byte register as it was (R15, R16). -/
theorem State.readD_writeD_of_ne {k j : DReg} (h : j ≠ k) (v : Byte) :
    (s.writeD k v).readD j = s.readD j := by
  cases k <;> cases j <;> first | exact absurd rfl h | rfl | simp [State.writeD, State.readD]

@[simp] theorem State.readD_setPc (k : DReg) (t : Word) : (s.setPc t).readD k = s.readD k := by
  cases k <;> rfl

@[simp] theorem State.readD_setMem (k : DReg) (m : Memory) : (s.setMem m).readD k = s.readD k := by
  cases k <;> rfl

@[simp] theorem State.readD_writeByte (k : DReg) (a : Word) (v : Byte) :
    (s.writeByte a v).readD k = s.readD k := by
  cases k <;> rfl

@[simp] theorem State.readD_sr : s.readD .sr = s.sr := rfl

theorem State.readD_setSr_of_ne {k : DReg} (h : k ≠ .sr) (v : Byte) :
    (s.setSr v).readD k = s.readD k := by
  cases k <;> first | exact absurd rfl h | rfl

@[simp] theorem State.readD_sr_setSr (v : Byte) : (s.setSr v).readD .sr = v := rfl

/-- The link write changes the two bytes of `ra` and no other byte register (R95). -/
theorem State.readD_setRa_of_ne {k : DReg} (hl : k ≠ .raL) (hh : k ≠ .raH) (t : Word) :
    (s.setRa t).readD k = s.readD k := by
  cases k <;> first | exact absurd rfl hl | exact absurd rfl hh | rfl

@[simp] theorem State.readW_setPc (r : WReg) (t : Word) : (s.setPc t).readW r = s.readW r := by
  cases r <;> rfl

@[simp] theorem State.readW_setSr (r : WReg) (v : Byte) : (s.setSr v).readW r = s.readW r := by
  cases r <;> rfl

end Sys2Proof.Machine
end

