-- ==== Sys2Proof/Laws/Flags.lean ====
section
/-! SUPPORT. Flags of the status byte, the adder in integer terms, and what writing an operation's outputs can do
(rules R21, R22, R70, R72, R74). -/

namespace Sys2Proof.Machine

/-! ## Flag writes (R22, R25) -/

variable (b : Byte) (c v n z : Bool)

@[simp] theorem srC_cvnz : srC ((FlagWrite.cvnz c v n z).apply b) = c := by
  simp only [srC, FlagWrite.apply, BitVec.getLsbD_append]; simp
@[simp] theorem srV_cvnz : srV ((FlagWrite.cvnz c v n z).apply b) = v := by
  simp only [srV, FlagWrite.apply, BitVec.getLsbD_append]; simp
@[simp] theorem srN_cvnz : srN ((FlagWrite.cvnz c v n z).apply b) = n := by
  simp only [srN, FlagWrite.apply, BitVec.getLsbD_append]; simp
@[simp] theorem srZ_cvnz : srZ ((FlagWrite.cvnz c v n z).apply b) = z := by
  simp only [srZ, FlagWrite.apply, BitVec.getLsbD_append]; simp
@[simp] theorem srHigh_cvnz : srHigh ((FlagWrite.cvnz c v n z).apply b) = srHigh b := by
  apply BitVec.eq_of_getLsbD_eq; intro i hi
  interval_cases i <;>
    simp only [srHigh, FlagWrite.apply, BitVec.getLsbD_extractLsb', BitVec.getLsbD_append] <;> simp
@[simp] theorem srC_nz : srC ((FlagWrite.nz n z).apply b) = srC b := by
  simp only [srC, FlagWrite.apply, BitVec.getLsbD_append, BitVec.getLsbD_extractLsb']; simp
@[simp] theorem srV_nz : srV ((FlagWrite.nz n z).apply b) = srV b := by
  simp only [srV, FlagWrite.apply, BitVec.getLsbD_append, BitVec.getLsbD_extractLsb']; simp
@[simp] theorem srN_nz : srN ((FlagWrite.nz n z).apply b) = n := by
  simp only [srN, FlagWrite.apply, BitVec.getLsbD_append]; simp
@[simp] theorem srZ_nz : srZ ((FlagWrite.nz n z).apply b) = z := by
  simp only [srZ, FlagWrite.apply, BitVec.getLsbD_append]; simp
@[simp] theorem srHigh_nz : srHigh ((FlagWrite.nz n z).apply b) = srHigh b := by
  apply BitVec.eq_of_getLsbD_eq; intro i hi
  interval_cases i <;>
    simp only [srHigh, FlagWrite.apply, BitVec.getLsbD_extractLsb', BitVec.getLsbD_append] <;> simp

/-! ## The adder (R72) -/

variable (x y : Byte) (cin : Bool)

theorem adder_sum_toNat :
    (x.zeroExtend 9 + y.zeroExtend 9 + (BitVec.ofBool cin).zeroExtend 9 : BitVec 9).toNat
      = x.toNat + y.toNat + cin.toNat := by
  have := x.isLt; have := y.isLt
  cases cin <;> simp [BitVec.toNat_add] <;> omega

theorem adder_r_toNat : (adder x y cin).r.toNat = (x.toNat + y.toNat + cin.toNat) % 256 := by
  simp only [adder, BitVec.extractLsb'_toNat, adder_sum_toNat]
  simp

theorem adder_c : (adder x y cin).c = decide (256 ≤ x.toNat + y.toNat + cin.toNat) := by
  have hx := x.isLt; have hy := y.isLt
  have hc : cin.toNat ≤ 1 := by cases cin <;> simp
  simp only [adder, BitVec.getLsbD, adder_sum_toNat, Nat.testBit, Nat.shiftRight_eq_div_pow]
  have h2 : (x.toNat + y.toNat + cin.toNat) / 2 ^ 8 = 0 ∨
      (x.toNat + y.toNat + cin.toNat) / 2 ^ 8 = 1 := by omega
  rcases h2 with h | h
  · have : ¬ 256 ≤ x.toNat + y.toNat + cin.toNat := by omega
    simp [this]; omega
  · have : 256 ≤ x.toNat + y.toNat + cin.toNat := by omega
    simp [this]; omega

theorem adder_n : (adder x y cin).n = (adder x y cin).r.msb := rfl

theorem adder_z : (adder x y cin).z = ((adder x y cin).r == 0x00#8) := rfl

/-- Flag v is two's-complement overflow of the three-input sum (R72, D10; log 16). -/
theorem adder_v : (adder x y cin).v = true ↔
    (x.toInt + y.toInt + (cin.toNat : Int) < -128 ∨ 127 < x.toInt + y.toInt + (cin.toNat : Int)) := by
  have hx := x.isLt; have hy := y.isLt
  have hc : cin.toNat ≤ 1 := by cases cin <;> simp
  have hr := adder_r_toNat x y cin
  have hv : (adder x y cin).v = (x.msb == y.msb && (adder x y cin).r.msb != x.msb) := rfl
  rw [hv]
  simp only [BitVec.msb_eq_decide, BitVec.toInt_eq_toNat_cond, hr]
  simp only [Bool.and_eq_true, beq_iff_eq, bne_iff_ne, ne_eq, decide_eq_decide]
  split <;> split <;> omega

/-! ## Writing an operation's outputs (R70, R74) -/

variable (s : State)

@[simp] theorem State.commit_result (k : DReg) (r : Byte) : s.commit k (.result r) = s.writeD k r := rfl

@[simp] theorem State.commit_flags (k : DReg) (f : FlagWrite) :
    s.commit k (.flags f) = s.setSr (f.apply s.sr) := rfl

@[simp] theorem State.pc_commit (k : DReg) (out : AluOut) : (s.commit k out).pc = s.pc := by
  cases out <;> cases k <;> rfl

@[simp] theorem State.mem_commit (k : DReg) (out : AluOut) : (s.commit k out).mem = s.mem := by
  cases out <;> cases k <;> rfl

@[simp] theorem State.readByte_commit (k : DReg) (out : AluOut) (a : Word) :
    (s.commit k out).readByte a = s.readByte a := State.readByte_congr (State.mem_commit s k out) a

/-- With destination `sr` and both outputs, `sr` ends as one of two bytes (R24, R74; log 6). -/
theorem srDestByte_cases (order : SrDestOrder) (r : Byte) (f : FlagWrite) :
    srDestByte order r f = f.apply r ∨ srDestByte order r f = r := by
  cases order
  · exact .inl rfl
  · exact .inr rfl

/-- The destination holds the result (R70). -/
theorem State.readD_commit_both_self {k : DReg} (h : k ≠ .sr) (r : Byte) (f : FlagWrite) :
    (s.commit k (.both r f)).readD k = r := by
  rw [State.commit, State.readD_setSr_of_ne _ h, State.readD_writeD_self]

/-- `sr` gets the flag write and nothing else (R22, R70). -/
@[simp] theorem State.sr_commit_both (k : DReg) (r : Byte) (f : FlagWrite) :
    (s.commit k (.both r f)).sr = f.apply s.sr := rfl

/-- No byte register but the destination and `sr` changes, whatever the outputs (R70). -/
theorem State.readD_commit_of_ne {k j : DReg} (hj : j ≠ k) (hsr : j ≠ .sr) (out : AluOut) :
    (s.commit k out).readD j = s.readD j := by
  cases out with
  | result r => exact State.readD_writeD_of_ne s hj r
  | flags f => exact State.readD_setSr_of_ne s hsr _
  | both r f => rw [State.commit, State.readD_setSr_of_ne _ hsr, State.readD_writeD_of_ne s hj]

/-! What the end of an ALU operation can answer, under any setting of SR_DEST_ORDER (R24, R74, R121). -/

variable (setting : SrDestSetting)

@[simp] theorem commitUnder_result (k : DReg) (r : Byte) :
    commitUnder setting k (.result r) s = .next (s.writeD k r) := rfl

@[simp] theorem commitUnder_flags (k : DReg) (f : FlagWrite) :
    commitUnder setting k (.flags f) s = .next (s.setSr (f.apply s.sr)) := rfl

theorem commitUnder_both_of_ne {k : DReg} (h : k ≠ .sr) (r : Byte) (f : FlagWrite) :
    commitUnder setting k (.both r f) s = .next (s.commit k (.both r f)) := if_neg h

@[simp] theorem commitUnder_both_sr (r : Byte) (f : FlagWrite) :
    commitUnder setting .sr (.both r f) s = statusUnder setting r f s := rfl

@[simp] theorem statusUnder_refuse (r : Byte) (f : FlagWrite) :
    statusUnder .refuse r f s = .refused .srDestination := rfl

@[simp] theorem statusUnder_run (order : SrDestOrder) (r : Byte) (f : FlagWrite) :
    statusUnder (.run order) r f s = .next (s.setSr (srDestByte order r f)) := rfl

/-- Everything format A can do: it is the end of the operation on the operands before it (R70). -/
theorem runR_eq (op : Byte → Byte → Bool → AluOut) (k j : DReg) :
    runR op k j s = commitUnder Params.srDest k (op (s.readD k) (s.readD j) (srC s.sr)) s := rfl

/-- Everything format IA can do (R71). -/
theorem runI_eq (op : Byte → Byte → Bool → AluOut) (k : DReg) (imm : Imm6) :
    runI op k imm s = commitUnder Params.srDest k (op (s.readD k) (immByte imm) (srC s.sr)) s := rfl

/-- The end of an operation with a result and flags, under the model's setting: a commit, or one of two bytes
into `sr` (R24, R70; log 6). -/
theorem commitUnder_both_cases (k : DReg) (r : Byte) (f : FlagWrite) :
    (k ≠ .sr ∧ commitUnder Params.srDest k (.both r f) s = .next (s.commit k (.both r f))) ∨
    (k = .sr ∧ commitUnder Params.srDest k (.both r f) s =
      .next (s.setSr (srDestByte Config.srDestOrder r f))) := by
  by_cases h : k = .sr
  · subst h; exact .inr ⟨rfl, rfl⟩
  · exact .inl ⟨h, commitUnder_both_of_ne s _ h r f⟩

end Sys2Proof.Machine
end

