-- ==== Sys2Proof/Laws/Exec.lean ====
section
/-! SUPPORT. Once for each shared operation: everything it can answer (rules R70, R71, R93, R109, R19). -/

namespace Sys2Proof.Machine

variable (s : State)

/-- Everything a load can do: it answers the state with the byte in the target register (R109, R110). -/
theorem runLoad_eq (base : MBase) (x : DReg) (imm : Imm6) :
    runLoad base x imm s = .next (s.writeD x (s.readByte (dataAddr base imm s))) := rfl

/-- Everything a store can do: it answers the state with the register's byte at the address (R109, R114). -/
theorem runStore_eq (base : MBase) (x : DReg) (imm : Imm6) :
    runStore base x imm s = .next (s.writeByte (dataAddr base imm s) (s.readD x)) := rfl

/-- Everything a control transfer can do: taken, it writes the link if it is a call and then `pc`; not taken, it
writes nothing (R93, R95). -/
theorem runControl_eq (save : Bool) (base : CBase) (neg : Bool) (cc : Cond) (imm : Imm6) :
    runControl save base neg cc imm s =
      if taken neg cc s then .next ((link save s).setPc (controlTarget base imm s)) else .next s := rfl

/-- ALU code 1011 advances nothing but `pc`, which the step has advanced (R86; log 5). -/
theorem reserved1011_eq : reserved1011 Params.op1011 s = .next s := rfl

@[simp] theorem link_false : link false s = s := rfl
@[simp] theorem link_true : link true s = s.setRa s.pc := rfl

/-- `nop` is the move of `gb` to itself: it changes no field (R92). -/
theorem execNop_eq : execNop s = .next s := rfl

/-- The step is the execution of the word at `pc`, with `pc` advanced (R19). -/
theorem step_eq : step s = exec (decodeWord s.wordAtPc) (s.setPc (nextPc s.pc)) := rfl

/-- What `step` does on a placed word (R19; log 24). -/
theorem step_withFetchWord (nbits w : Nat) :
    step (s.withFetchWord nbits w) =
      exec (decodeWord (tableWord nbits w)) ((s.withFetchWord nbits w).setPc (nextPc s.pc)) := by
  have h : (s.withFetchWord nbits w).fetch s.pc = .ok (tableWord nbits w) := State.fetch_placeWord s _ _
  have hp : (s.withFetchWord nbits w).pc = s.pc := rfl
  unfold step
  rw [hp, h]

/-! ## Parity and masks, for targets (R20, R94) -/

theorem even_add {a b : Word} (ha : a.getLsbD 0 = false) (hb : b.getLsbD 0 = false) :
    (a + b).getLsbD 0 = false := by
  have ha' : a.toNat % 2 = 0 := by simpa [BitVec.getLsbD, Nat.testBit_zero] using ha
  have hb' : b.toNat % 2 = 0 := by simpa [BitVec.getLsbD, Nat.testBit_zero] using hb
  simp only [BitVec.getLsbD, Nat.testBit_zero, BitVec.toNat_add, decide_eq_false_iff_not]
  omega

theorem immDisplacement_even (imm : Imm6) : (immDisplacement imm).getLsbD 0 = false := by
  simp [immDisplacement]

theorem masked_even (r : Word) : (r &&& 0xFFFE#16).getLsbD 0 = false := by
  simp

theorem nextPc_even {a : Word} (h : a.getLsbD 0 = false) : (nextPc a).getLsbD 0 = false :=
  even_add h (by decide)

theorem masked_toNat (r : Word) : (r &&& 0xFFFE#16).toNat = r.toNat / 2 * 2 := by
  have h : r &&& 0xFFFE#16 = (r >>> 1) <<< 1 := by
    apply BitVec.eq_of_getLsbD_eq; intro i hi
    interval_cases i <;> simp
  have := r.isLt
  simp [h, BitVec.toNat_shiftLeft, Nat.shiftLeft_eq, Nat.shiftRight_eq_div_pow]; omega

/-! ## Everything an instruction can do -/

/-- An instruction's only outcome, one case for each shape: it writes an operation's outputs, or a result and flags
into `sr`, or nothing, or one register from memory, or one byte of memory, or `pc` with or without the link
(R70, R74, R93, R109, R65). -/
theorem exec_cases (i : Instr) :
    (∃ k out, exec i s = .next (s.commit k out) ∧ isControl i = false ∧ isCall i = false ∧
      storeAddr i s = none ∧
      ((∃ r f, out = .both r f ∧ k ≠ .sr ∧ destination i = some k ∧ writesFlags i = true) ∨
        (∃ r, out = .result r ∧ destination i = some k) ∨
        (∃ f, out = .flags f ∧ destination i = none ∧ writesFlags i = true))) ∨
    (∃ r f, exec i s = .next (s.setSr (srDestByte Config.srDestOrder r f)) ∧ isControl i = false ∧
      isCall i = false ∧ storeAddr i s = none ∧ destination i = some .sr ∧ writesFlags i = true) ∨
    (exec i s = .next s ∧ storeAddr i s = none) ∨
    (∃ x v, exec i s = .next (s.writeD x v) ∧ isControl i = false ∧ destination i = some x ∧
      storeAddr i s = none) ∨
    (∃ a v, exec i s = .next (s.writeByte a v) ∧ isControl i = false ∧ storeAddr i s = some a) ∨
    (∃ base imm, exec i s = .next ((link (isCall i) s).setPc (controlTarget base imm s)) ∧
      isControl i = true ∧ storeAddr i s = none) := by
  have control : ∀ base neg cc imm, exec i s = runControl (isCall i) base neg cc imm s →
      isControl i = true → storeAddr i s = none →
      (exec i s = .next s ∧ storeAddr i s = none) ∨
      (∃ base imm, exec i s = .next ((link (isCall i) s).setPc (controlTarget base imm s)) ∧
        isControl i = true ∧ storeAddr i s = none) := by
    intro base neg cc imm h hc hs
    rw [h, runControl_eq]
    split
    · exact .inr ⟨base, imm, rfl, hc, hs⟩
    · exact .inl ⟨rfl, hs⟩
  have both : ∀ k r f, exec i s = commitUnder Params.srDest k (.both r f) s → isControl i = false →
      isCall i = false → storeAddr i s = none → destination i = some k → writesFlags i = true →
      (∃ k out, exec i s = .next (s.commit k out) ∧ isControl i = false ∧ isCall i = false ∧
        storeAddr i s = none ∧
        ((∃ r f, out = .both r f ∧ k ≠ .sr ∧ destination i = some k ∧ writesFlags i = true) ∨
          (∃ r, out = .result r ∧ destination i = some k) ∨
          (∃ f, out = .flags f ∧ destination i = none ∧ writesFlags i = true))) ∨
      (∃ r f, exec i s = .next (s.setSr (srDestByte Config.srDestOrder r f)) ∧ isControl i = false ∧
        isCall i = false ∧ storeAddr i s = none ∧ destination i = some .sr ∧ writesFlags i = true) := by
    intro k r f h hc hl hs hd hw
    rw [h]
    rcases commitUnder_both_cases s k r f with ⟨hk, e⟩ | ⟨rfl, e⟩
    · exact .inl ⟨k, _, e, hc, hl, hs, .inl ⟨r, f, rfl, hk, hd, hw⟩⟩
    · exact .inr ⟨r, f, e, hc, hl, hs, hd, hw⟩
  cases i
  case nop | res1011R | res1011I => exact .inr (.inr (.inl ⟨rfl, rfl⟩))
  case ld | ldr | lds | ldf => exact .inr (.inr (.inr (.inl ⟨_, _, rfl, rfl, rfl, rfl⟩)))
  case st | sts | stf => exact .inr (.inr (.inr (.inr (.inl ⟨_, _, rfl, rfl, rfl⟩))))
  case movR | movI | mvhR | mvhI =>
    exact .inl ⟨_, _, rfl, rfl, rfl, rfl, .inr (.inl ⟨_, rfl, rfl⟩)⟩
  case cmpR x _ | cmpI x _ | cmcR x _ | cmcI x _ | tsbR x _ | tsbI x _ =>
    exact .inl ⟨x, _, rfl, rfl, rfl, rfl, .inr (.inr ⟨_, rfl, rfl, rfl⟩)⟩
  case addR | addI | adcR | adcI | subR | subI | sbcR | sbcI | andR | andI | orR | orI | xorR | xorI
      | shlR | shlI | shrR | shrI | sebR | sebI =>
    rcases both _ _ _ rfl rfl rfl rfl rfl rfl with h | h
    · exact .inl h
    · exact .inr (.inl h)
  all_goals
    rcases control _ _ _ _ rfl rfl rfl with h | h
    · exact .inr (.inr (.inl h))
    · exact .inr (.inr (.inr (.inr (.inr h))))

end Sys2Proof.Machine
end

