-- ==== Sys2Proof/Laws/PerInstr.lean ====
section
/-! SUPPORT. Per instruction: its encoding carries its row of spec/opcode_table.json, for every value of its
operands. The masks and match values are transcribed from the table, not computed from the encoder. -/

namespace Sys2Proof.Laws.TableRow

/-- The row's mask and match value, from spec/opcode_table.json. -/
def row : Instr → Word × Word
  | .addR _ _ => (0xFC00#16, 0x0000#16)
  | .addI _ _ => (0xFC00#16, 0x4000#16)
  | .adcR _ _ => (0xFC00#16, 0x0400#16)
  | .adcI _ _ => (0xFC00#16, 0x4400#16)
  | .subR _ _ => (0xFC00#16, 0x0800#16)
  | .subI _ _ => (0xFC00#16, 0x4800#16)
  | .sbcR _ _ => (0xFC00#16, 0x0C00#16)
  | .sbcI _ _ => (0xFC00#16, 0x4C00#16)
  | .cmpR _ _ => (0xFC00#16, 0x1000#16)
  | .cmpI _ _ => (0xFC00#16, 0x5000#16)
  | .cmcR _ _ => (0xFC00#16, 0x1400#16)
  | .cmcI _ _ => (0xFC00#16, 0x5400#16)
  | .andR _ _ => (0xFC00#16, 0x1800#16)
  | .andI _ _ => (0xFC00#16, 0x5800#16)
  | .orR _ _ => (0xFC00#16, 0x1C00#16)
  | .orI _ _ => (0xFC00#16, 0x5C00#16)
  | .xorR _ _ => (0xFC00#16, 0x2000#16)
  | .xorI _ _ => (0xFC00#16, 0x6000#16)
  | .shlR _ _ => (0xFC00#16, 0x2400#16)
  | .shlI _ _ => (0xFC00#16, 0x6400#16)
  | .shrR _ _ => (0xFC00#16, 0x2800#16)
  | .shrI _ _ => (0xFC00#16, 0x6800#16)
  | .res1011R _ _ => (0xFC00#16, 0x2C00#16)
  | .res1011I _ _ => (0xFC00#16, 0x6C00#16)
  | .movR _ _ => (0xFC00#16, 0x3000#16)
  | .movI _ _ => (0xFC00#16, 0x7000#16)
  | .mvhR _ _ => (0xFC00#16, 0x3400#16)
  | .mvhI _ _ => (0xFC00#16, 0x7400#16)
  | .tsbR _ _ => (0xFC00#16, 0x3800#16)
  | .tsbI _ _ => (0xFC00#16, 0x7800#16)
  | .sebR _ _ => (0xFC00#16, 0x3C00#16)
  | .sebI _ _ => (0xFC00#16, 0x7C00#16)
  | .nop => (0xFFFF#16, 0x3055#16)
  | .ld _ _ _ => (0xE000#16, 0x8000#16)
  | .ldr _ _ => (0xFC00#16, 0x8800#16)
  | .lds _ _ => (0xFC00#16, 0x8000#16)
  | .ldf _ _ => (0xFC00#16, 0x8400#16)
  | .st _ _ _ => (0xE000#16, 0xA000#16)
  | .sts _ _ => (0xFC00#16, 0xA000#16)
  | .stf _ _ => (0xFC00#16, 0xA400#16)
  | .jmp _ _ _ _ => (0xF000#16, 0xD000#16)
  | .jmpr _ _ _ => (0xFC00#16, 0xC800#16)
  | .jmpbl _ _ _ => (0xFC00#16, 0xC000#16)
  | .jmpbh _ _ _ => (0xFC00#16, 0xC400#16)
  | .call _ _ _ _ => (0xF000#16, 0xF000#16)
  | .callr _ _ _ => (0xFC00#16, 0xE800#16)
  | .clbl _ _ _ => (0xFC00#16, 0xE000#16)
  | .clbh _ _ _ => (0xFC00#16, 0xE400#16)
  | .ret _ _ _ => (0xFC00#16, 0xCC00#16)
  | .clret _ _ _ => (0xFC00#16, 0xEC00#16)

/-- The encoded word agrees with its row on every fixed bit. -/
def Statement (i : Instr) : Prop := encode i &&& (row i).1 = (row i).2

/-! The fixed bits of each format's picture, whatever the operands. -/

theorem wordA_and_mask (o : BitVec 4) (x y : DReg) :
    wordA o x y &&& 0xFC00#16 = 0b00#2 ++ o ++ 0#10 := by
  apply BitVec.eq_of_getLsbD_eq; intro i hi
  interval_cases i <;> simp only [wordA, pictureA, BitVec.getLsbD_and, BitVec.getLsbD_append] <;> simp

theorem wordIA_and_mask (o : BitVec 4) (x : DReg) (imm : Imm6) :
    wordIA o x imm &&& 0xFC00#16 = 0b01#2 ++ o ++ 0#10 := by
  apply BitVec.eq_of_getLsbD_eq; intro i hi
  interval_cases i <;> simp only [wordIA, BitVec.getLsbD_and, BitVec.getLsbD_append] <;> simp

theorem wordM_and_mask (st : Bool) (base : MBase) (x : DReg) (imm : Imm6) :
    wordM st base x imm &&& 0xFC00#16 = 0b10#2 ++ BitVec.ofBool st ++ base.code ++ 0#10 := by
  apply BitVec.eq_of_getLsbD_eq; intro i hi
  interval_cases i <;> simp only [wordM, BitVec.getLsbD_and, BitVec.getLsbD_append] <;> simp

theorem wordM_and_short_mask (st : Bool) (base : MBase) (x : DReg) (imm : Imm6) :
    wordM st base x imm &&& 0xE000#16 = 0b10#2 ++ BitVec.ofBool st ++ 0#13 := by
  apply BitVec.eq_of_getLsbD_eq; intro i hi
  interval_cases i <;> simp only [wordM, BitVec.getLsbD_and, BitVec.getLsbD_append] <;> simp

theorem wordC_and_mask (sv : Bool) (base : CBase) (neg : Bool) (cc : Cond) (imm : Imm6) :
    wordC sv base neg cc imm &&& 0xFC00#16 = 0b11#2 ++ BitVec.ofBool sv ++ base.code ++ 0#10 := by
  apply BitVec.eq_of_getLsbD_eq; intro i hi
  interval_cases i <;> simp only [wordC, BitVec.getLsbD_and, BitVec.getLsbD_append] <;> simp

theorem wordC_reg_and_mask (sv : Bool) (r : WReg) (neg : Bool) (cc : Cond) (imm : Imm6) :
    wordC sv (.reg r) neg cc imm &&& 0xF000#16 = 0b11#2 ++ BitVec.ofBool sv ++ 0b1#1 ++ 0#12 := by
  apply BitVec.eq_of_getLsbD_eq; intro i hi
  cases r <;> interval_cases i <;>
    simp only [wordC, CBase.code, BitVec.getLsbD_and, BitVec.getLsbD_append] <;> simp

theorem addR (x y : DReg) : Statement (.addR x y) := (wordA_and_mask _ x y).trans rfl
theorem addI (x : DReg) (imm : Imm6) : Statement (.addI x imm) := (wordIA_and_mask _ x imm).trans rfl
theorem adcR (x y : DReg) : Statement (.adcR x y) := (wordA_and_mask _ x y).trans rfl
theorem adcI (x : DReg) (imm : Imm6) : Statement (.adcI x imm) := (wordIA_and_mask _ x imm).trans rfl
theorem subR (x y : DReg) : Statement (.subR x y) := (wordA_and_mask _ x y).trans rfl
theorem subI (x : DReg) (imm : Imm6) : Statement (.subI x imm) := (wordIA_and_mask _ x imm).trans rfl
theorem sbcR (x y : DReg) : Statement (.sbcR x y) := (wordA_and_mask _ x y).trans rfl
theorem sbcI (x : DReg) (imm : Imm6) : Statement (.sbcI x imm) := (wordIA_and_mask _ x imm).trans rfl
theorem cmpR (x y : DReg) : Statement (.cmpR x y) := (wordA_and_mask _ x y).trans rfl
theorem cmpI (x : DReg) (imm : Imm6) : Statement (.cmpI x imm) := (wordIA_and_mask _ x imm).trans rfl
theorem cmcR (x y : DReg) : Statement (.cmcR x y) := (wordA_and_mask _ x y).trans rfl
theorem cmcI (x : DReg) (imm : Imm6) : Statement (.cmcI x imm) := (wordIA_and_mask _ x imm).trans rfl
theorem andR (x y : DReg) : Statement (.andR x y) := (wordA_and_mask _ x y).trans rfl
theorem andI (x : DReg) (imm : Imm6) : Statement (.andI x imm) := (wordIA_and_mask _ x imm).trans rfl
theorem orR (x y : DReg) : Statement (.orR x y) := (wordA_and_mask _ x y).trans rfl
theorem orI (x : DReg) (imm : Imm6) : Statement (.orI x imm) := (wordIA_and_mask _ x imm).trans rfl
theorem xorR (x y : DReg) : Statement (.xorR x y) := (wordA_and_mask _ x y).trans rfl
theorem xorI (x : DReg) (imm : Imm6) : Statement (.xorI x imm) := (wordIA_and_mask _ x imm).trans rfl
theorem shlR (x y : DReg) : Statement (.shlR x y) := (wordA_and_mask _ x y).trans rfl
theorem shlI (x : DReg) (imm : Imm6) : Statement (.shlI x imm) := (wordIA_and_mask _ x imm).trans rfl
theorem shrR (x y : DReg) : Statement (.shrR x y) := (wordA_and_mask _ x y).trans rfl
theorem shrI (x : DReg) (imm : Imm6) : Statement (.shrI x imm) := (wordIA_and_mask _ x imm).trans rfl
theorem res1011R (x y : DReg) : Statement (.res1011R x y) := (wordA_and_mask _ x y).trans rfl
theorem res1011I (x : DReg) (imm : Imm6) : Statement (.res1011I x imm) := (wordIA_and_mask _ x imm).trans rfl
theorem movR (x y : DReg) : Statement (.movR x y) := (wordA_and_mask _ x y).trans rfl
theorem movI (x : DReg) (imm : Imm6) : Statement (.movI x imm) := (wordIA_and_mask _ x imm).trans rfl
theorem mvhR (x y : DReg) : Statement (.mvhR x y) := (wordA_and_mask _ x y).trans rfl
theorem mvhI (x : DReg) (imm : Imm6) : Statement (.mvhI x imm) := (wordIA_and_mask _ x imm).trans rfl
theorem tsbR (x y : DReg) : Statement (.tsbR x y) := (wordA_and_mask _ x y).trans rfl
theorem tsbI (x : DReg) (imm : Imm6) : Statement (.tsbI x imm) := (wordIA_and_mask _ x imm).trans rfl
theorem sebR (x y : DReg) : Statement (.sebR x y) := (wordA_and_mask _ x y).trans rfl
theorem sebI (x : DReg) (imm : Imm6) : Statement (.sebI x imm) := (wordIA_and_mask _ x imm).trans rfl
theorem nop : Statement .nop := by unfold Statement; decide
theorem ld (base : MBase) (x : DReg) (imm : Imm6) : Statement (.ld base x imm) := (wordM_and_short_mask _ base x imm).trans rfl
theorem ldr (x : DReg) (imm : Imm6) : Statement (.ldr x imm) := (wordM_and_mask _ _ x imm).trans rfl
theorem lds (x : DReg) (imm : Imm6) : Statement (.lds x imm) := (wordM_and_mask _ _ x imm).trans rfl
theorem ldf (x : DReg) (imm : Imm6) : Statement (.ldf x imm) := (wordM_and_mask _ _ x imm).trans rfl
theorem st (base : MBase) (x : DReg) (imm : Imm6) : Statement (.st base x imm) := (wordM_and_short_mask _ base x imm).trans rfl
theorem sts (x : DReg) (imm : Imm6) : Statement (.sts x imm) := (wordM_and_mask _ _ x imm).trans rfl
theorem stf (x : DReg) (imm : Imm6) : Statement (.stf x imm) := (wordM_and_mask _ _ x imm).trans rfl
theorem jmp (r : WReg) (neg : Bool) (cc : Cond) (imm : Imm6) : Statement (.jmp r neg cc imm) := (wordC_reg_and_mask _ r neg cc imm).trans rfl
theorem jmpr (neg : Bool) (cc : Cond) (imm : Imm6) : Statement (.jmpr neg cc imm) := (wordC_and_mask _ _ neg cc imm).trans rfl
theorem jmpbl (neg : Bool) (cc : Cond) (imm : Imm6) : Statement (.jmpbl neg cc imm) := (wordC_and_mask _ _ neg cc imm).trans rfl
theorem jmpbh (neg : Bool) (cc : Cond) (imm : Imm6) : Statement (.jmpbh neg cc imm) := (wordC_and_mask _ _ neg cc imm).trans rfl
theorem call (r : WReg) (neg : Bool) (cc : Cond) (imm : Imm6) : Statement (.call r neg cc imm) := (wordC_reg_and_mask _ r neg cc imm).trans rfl
theorem callr (neg : Bool) (cc : Cond) (imm : Imm6) : Statement (.callr neg cc imm) := (wordC_and_mask _ _ neg cc imm).trans rfl
theorem clbl (neg : Bool) (cc : Cond) (imm : Imm6) : Statement (.clbl neg cc imm) := (wordC_and_mask _ _ neg cc imm).trans rfl
theorem clbh (neg : Bool) (cc : Cond) (imm : Imm6) : Statement (.clbh neg cc imm) := (wordC_and_mask _ _ neg cc imm).trans rfl
theorem ret (neg : Bool) (cc : Cond) (imm : Imm6) : Statement (.ret neg cc imm) := (wordC_and_mask _ _ neg cc imm).trans rfl
theorem clret (neg : Bool) (cc : Cond) (imm : Imm6) : Statement (.clret neg cc imm) := (wordC_and_mask _ _ neg cc imm).trans rfl

end Sys2Proof.Laws.TableRow
end

