-- ==== Sys2Proof/Tests/Slice0.lean ====
section
/-! SUPPORT. Tests: the well-formedness checks, one decoded word for each constructor, single steps, and a witness for
the hypotheses of each obligation. Expected results are the spec's (95_test_vectors.md by section, or the
rule named), never the model's own answers. -/

namespace Sys2Proof.Tests

open Sys2Proof.Machine

/-! ## Well-formedness: each check refuses its ill-formed terms (R69, R92; log 23) -/

theorem test_wf_refuses_ld_sp : (Instr.ld .sp .gb 0#6).wellFormed = false := by decide
theorem test_wf_refuses_ld_fp : (Instr.ld .fp .gb 0#6).wellFormed = false := by decide
theorem test_wf_refuses_ld_pc : (Instr.ld .pc .gb 0#6).wellFormed = false := by decide
theorem test_wf_refuses_st_sp : (Instr.st .sp .gb 0#6).wellFormed = false := by decide
theorem test_wf_refuses_st_fp : (Instr.st .fp .gb 0#6).wellFormed = false := by decide
theorem test_wf_refuses_mov_gb_gb : (Instr.movR .gb .gb).wellFormed = false := by decide
theorem test_wf_accepts_neighbours :
    (Instr.ld .gb .gb 0#6).wellFormed = true ∧ (Instr.st .pc .gb 0#6).wellFormed = true ∧
    (Instr.movR .gb .gc).wellFormed = true ∧ (Instr.movR .gc .gb).wellFormed = true := by decide
theorem test_decode_refuses_short_bytes :
    (decodeBytes []).isOk = false ∧ (decodeBytes [0x30#8]).isOk = false := by decide

/-! ## Decoding: one word for each constructor, written bit by bit from the row's picture (R48 to R52, R60), format,
operation or mode, immediate high, register or condition, immediate low. -/

theorem test_decode_addR : decodeWord 0b00_0000_00_1001_0010#16 = .addR .geH .sr := by decide
theorem test_decode_addI : decodeWord 0b01_0000_10_1001_0011#16 = .addI .geH 0b10_0011#6 := by decide
theorem test_decode_adcR : decodeWord 0b00_0001_00_1110_0101#16 = .adcR .ghL .gb := by decide
theorem test_decode_adcI : decodeWord 0b01_0001_01_1110_1010#16 = .adcI .ghL 0b01_1010#6 := by decide
theorem test_decode_subR : decodeWord 0b00_0010_00_0011_1000#16 = .subR .sp .geL := by decide
theorem test_decode_subI : decodeWord 0b01_0010_11_0011_0001#16 = .subI .sp 0b11_0001#6 := by decide
theorem test_decode_sbcR : decodeWord 0b00_0011_00_1000_1011#16 = .sbcR .geL .gfH := by decide
theorem test_decode_sbcI : decodeWord 0b01_0011_00_1000_1000#16 = .sbcI .geL 0b00_1000#6 := by decide
theorem test_decode_cmpR : decodeWord 0b00_0100_00_1101_1110#16 = .cmpR .ggH .ghL := by decide
theorem test_decode_cmpI : decodeWord 0b01_0100_10_1101_1111#16 = .cmpI .ggH 0b10_1111#6 := by decide
theorem test_decode_cmcR : decodeWord 0b00_0101_00_0010_0001#16 = .cmcR .sr .raH := by decide
theorem test_decode_cmcI : decodeWord 0b01_0101_01_0010_0110#16 = .cmcI .sr 0b01_0110#6 := by decide
theorem test_decode_andR : decodeWord 0b00_0110_00_0111_0100#16 = .andR .gd .fp := by decide
theorem test_decode_andI : decodeWord 0b01_0110_11_0111_1101#16 = .andI .gd 0b11_1101#6 := by decide
theorem test_decode_orR : decodeWord 0b00_0111_00_1100_0111#16 = .orR .ggL .gd := by decide
theorem test_decode_orI : decodeWord 0b01_0111_00_1100_0100#16 = .orI .ggL 0b00_0100#6 := by decide
theorem test_decode_xorR : decodeWord 0b00_1000_00_0001_1010#16 = .xorR .raH .gfL := by decide
theorem test_decode_xorI : decodeWord 0b01_1000_10_0001_1011#16 = .xorI .raH 0b10_1011#6 := by decide
theorem test_decode_shlR : decodeWord 0b00_1001_00_0110_1101#16 = .shlR .gc .ggH := by decide
theorem test_decode_shlI : decodeWord 0b01_1001_01_0110_0010#16 = .shlI .gc 0b01_0010#6 := by decide
theorem test_decode_shrR : decodeWord 0b00_1010_00_1011_0000#16 = .shrR .gfH .raL := by decide
theorem test_decode_shrI : decodeWord 0b01_1010_11_1011_1001#16 = .shrI .gfH 0b11_1001#6 := by decide
theorem test_decode_res1011R : decodeWord 0b00_1011_00_0000_0011#16 = .res1011R .raL .sp := by decide
theorem test_decode_res1011I : decodeWord 0b01_1011_00_0000_0000#16 = .res1011I .raL 0b00_0000#6 := by decide
theorem test_decode_movR : decodeWord 0b00_1100_00_0101_0110#16 = .movR .gb .gc := by decide
theorem test_decode_movI : decodeWord 0b01_1100_10_0101_0111#16 = .movI .gb 0b10_0111#6 := by decide
theorem test_decode_mvhR : decodeWord 0b00_1101_00_1010_1001#16 = .mvhR .gfL .geH := by decide
theorem test_decode_mvhI : decodeWord 0b01_1101_01_1010_1110#16 = .mvhI .gfL 0b01_1110#6 := by decide
theorem test_decode_tsbR : decodeWord 0b00_1110_00_1111_1100#16 = .tsbR .ghH .ggL := by decide
theorem test_decode_tsbI : decodeWord 0b01_1110_11_1111_0101#16 = .tsbI .ghH 0b11_0101#6 := by decide
theorem test_decode_sebR : decodeWord 0b00_1111_00_0100_1111#16 = .sebR .fp .ghH := by decide
theorem test_decode_sebI : decodeWord 0b01_1111_00_0100_1100#16 = .sebI .fp 0b00_1100#6 := by decide
theorem test_decode_nop : decodeWord 0b00110000_01010101#16 = .nop := by decide
theorem test_decode_ld : decodeWord 0b10_0_110_10_1101_0011#16 = .ld (.reg .gg) .ggH 0b10_0011#6 := by decide
theorem test_decode_ldr : decodeWord 0b10_0_010_01_0101_1100#16 = .ldr .gb 0b01_1100#6 := by decide
theorem test_decode_lds : decodeWord 0b10_0_000_11_0010_0001#16 = .lds .sr 0b11_0001#6 := by decide
theorem test_decode_ldf : decodeWord 0b10_0_001_10_0111_1000#16 = .ldf .gd 0b10_1000#6 := by decide
theorem test_decode_st : decodeWord 0b10_1_101_01_0000_1111#16 = .st (.reg .gf) .raL 0b01_1111#6 := by decide
theorem test_decode_sts : decodeWord 0b10_1_000_00_0001_0001#16 = .sts .raH 0b00_0001#6 := by decide
theorem test_decode_stf : decodeWord 0b10_1_001_11_0011_1110#16 = .stf .sp 0b11_1110#6 := by decide
theorem test_decode_jmp : decodeWord 0b11_0_100_10_1_101_0110#16 = .jmp .ge true .ge 0b10_0110#6 := by decide
theorem test_decode_jmpr : decodeWord 0b11_0_010_01_0_011_1001#16 = .jmpr false .z 0b01_1001#6 := by decide
theorem test_decode_jmpbl : decodeWord 0b11_0_000_11_1_000_0101#16 = .jmpbl true .c 0b11_0101#6 := by decide
theorem test_decode_jmpbh : decodeWord 0b11_0_001_00_0_001_1010#16 = .jmpbh false .v 0b00_1010#6 := by decide
theorem test_decode_call : decodeWord 0b11_1_110_01_0_010_1110#16 = .call .gg false .n 0b01_1110#6 := by decide
theorem test_decode_callr : decodeWord 0b11_1_010_10_1_100_0001#16 = .callr true .g 0b10_0001#6 := by decide
theorem test_decode_clbl : decodeWord 0b11_1_000_01_0_110_1011#16 = .clbl false .gu 0b01_1011#6 := by decide
theorem test_decode_clbh : decodeWord 0b11_1_001_10_1_111_0100#16 = .clbh true .always 0b10_0100#6 := by decide
theorem test_decode_ret : decodeWord 0b11_0_011_00_0_111_0001#16 = .ret false .always 0b00_0001#6 := by decide
theorem test_decode_clret : decodeWord 0b11_1_011_11_1_011_1111#16 = .clret true .z 0b11_1111#6 := by decide

/-- Section 2: bits 9:8 of format A are ignored, for `add` and for `nop` (R63, D6; log 14). -/
theorem test_decode_ignores_bits_9_8 :
    decodeWord 0x0356#16 = .addR .gb .gc ∧ decodeWord 0x3355#16 = .nop := by decide
/-- The opcode table's numbering: the word itself, bits above `nbits` zero (R7). -/
theorem test_decode_table_word :
    decodeTableWord 16 0x6451 = some (.shlI .gb 0b000001#6) ∧
    decodeTableWord 16 0xFC75 = some (.call .gh false .always 0b000101#6) := by decide
/-- S1: `nop` is the bytes 30 55 in ascending address order (log 1). -/
theorem test_encode_bytes_nop : encodeBytes .nop = [0x30#8, 0x55#8] := by decide

/-! ## Single steps -/

/-- All registers zero, `pc` at 0x0300. -/
def at300 : State := { State.reset with pc := 0x0300#16 }

/-- One step of the word `w` placed at `pc`. -/
def run (s : State) (w : Word) : Result := step (s.placeWord s.pc w)

/-- A byte register after a step. -/
def reg (k : DReg) : Result → Option Byte
  | .next t => some (t.readD k)
  | .fault _ => none
  | .refused _ => none

/-- `pc` after a step. -/
def pcAfter : Result → Option Word
  | .next t => some t.pc
  | .fault _ => none
  | .refused _ => none

/-- `ra` after a step. -/
def raAfter : Result → Option Word
  | .next t => some t.ra
  | .fault _ => none
  | .refused _ => none

/-- The written byte at an address after a step. -/
def byteAfter (a : Nat) : Result → Option Byte
  | .next t => Memory.read t.mem a
  | .fault _ => none
  | .refused _ => none

/-- `gb`, `gc` and `sr` as given, for the ALU rows: operand 1, operand 2, status before. -/
def alu (op1 op2 sr : Byte) : State := { at300 with gb := op1, gc := op2, sr := sr }

/-! Section 3 (and, where a docstring says so, a rule's own arithmetic): `gb` and `sr` after. -/

theorem test_addR : reg .gb (run (alu 0x80#8 0x80#8 0x00#8) 0x0056#16) = some 0x00#8 ∧
    reg .sr (run (alu 0x80#8 0x80#8 0x00#8) 0x0056#16) = some 0x0D#8 := by decide
theorem test_addI : reg .gb (run (alu 0x7F#8 0#8 0x00#8) 0x4051#16) = some 0x80#8 ∧
    reg .sr (run (alu 0x7F#8 0#8 0x00#8) 0x4051#16) = some 0x06#8 := by decide
theorem test_adcR : reg .gb (run (alu 0xFF#8 0xFF#8 0x08#8) 0x0456#16) = some 0xFF#8 ∧
    reg .sr (run (alu 0xFF#8 0xFF#8 0x08#8) 0x0456#16) = some 0x0A#8 := by decide
theorem test_adcI : reg .gb (run (alu 0x7F#8 0#8 0x08#8) 0x4450#16) = some 0x80#8 ∧
    reg .sr (run (alu 0x7F#8 0#8 0x08#8) 0x4450#16) = some 0x06#8 := by decide
theorem test_subR : reg .gb (run (alu 0x7F#8 0x80#8 0x00#8) 0x0856#16) = some 0xFF#8 ∧
    reg .sr (run (alu 0x7F#8 0x80#8 0x00#8) 0x0856#16) = some 0x06#8 := by decide
theorem test_subI : reg .gb (run (alu 0x03#8 0#8 0x00#8) 0x4855#16) = some 0xFE#8 ∧
    reg .sr (run (alu 0x03#8 0#8 0x00#8) 0x4855#16) = some 0x02#8 := by decide
theorem test_sbcR : reg .gb (run (alu 0x00#8 0xFF#8 0x00#8) 0x0C56#16) = some 0x00#8 ∧
    reg .sr (run (alu 0x00#8 0xFF#8 0x00#8) 0x0C56#16) = some 0x01#8 := by decide
theorem test_sbcI : reg .gb (run (alu 0x80#8 0#8 0x00#8) 0x4C50#16) = some 0x7F#8 ∧
    reg .sr (run (alu 0x80#8 0#8 0x00#8) 0x4C50#16) = some 0x0C#8 := by decide
theorem test_cmpR : reg .gb (run (alu 0x80#8 0x7F#8 0x00#8) 0x1056#16) = some 0x80#8 ∧
    reg .sr (run (alu 0x80#8 0x7F#8 0x00#8) 0x1056#16) = some 0x0C#8 := by decide
theorem test_cmpI : reg .gb (run (alu 0x00#8 0#8 0x00#8) 0x5051#16) = some 0x00#8 ∧
    reg .sr (run (alu 0x00#8 0#8 0x00#8) 0x5051#16) = some 0x02#8 := by decide
theorem test_cmcR : reg .gb (run (alu 0x05#8 0x05#8 0x00#8) 0x1456#16) = some 0x05#8 ∧
    reg .sr (run (alu 0x05#8 0x05#8 0x00#8) 0x1456#16) = some 0x02#8 := by decide
theorem test_cmcI : reg .gb (run (alu 0x05#8 0#8 0x08#8) 0x5455#16) = some 0x05#8 ∧
    reg .sr (run (alu 0x05#8 0#8 0x08#8) 0x5455#16) = some 0x09#8 := by decide
theorem test_andR : reg .gb (run (alu 0xF0#8 0x3C#8 0x0C#8) 0x1856#16) = some 0x30#8 ∧
    reg .sr (run (alu 0xF0#8 0x3C#8 0x0C#8) 0x1856#16) = some 0x0C#8 := by decide
/-- Section 3, the immediate 110000 extended to 0xF0 (R53). -/
theorem test_andI : reg .gb (run (alu 0x0F#8 0#8 0x00#8) 0x5B50#16) = some 0x00#8 ∧
    reg .sr (run (alu 0x0F#8 0#8 0x00#8) 0x5B50#16) = some 0x01#8 := by decide
theorem test_orR : reg .gb (run (alu 0x00#8 0x00#8 0x0F#8) 0x1C56#16) = some 0x00#8 ∧
    reg .sr (run (alu 0x00#8 0x00#8 0x0F#8) 0x1C56#16) = some 0x0D#8 := by decide
theorem test_orI : reg .gb (run (alu 0x80#8 0#8 0x00#8) 0x5C51#16) = some 0x81#8 ∧
    reg .sr (run (alu 0x80#8 0#8 0x00#8) 0x5C51#16) = some 0x02#8 := by decide
theorem test_xorR : reg .gb (run (alu 0xAA#8 0xAA#8 0x08#8) 0x2056#16) = some 0x00#8 ∧
    reg .sr (run (alu 0xAA#8 0xAA#8 0x08#8) 0x2056#16) = some 0x09#8 := by decide
/-- 0xAA xor 0xFF, by R83 and R53. -/
theorem test_xorI : reg .gb (run (alu 0xAA#8 0#8 0x0C#8) 0x635F#16) = some 0x55#8 ∧
    reg .sr (run (alu 0xAA#8 0#8 0x0C#8) 0x635F#16) = some 0x0C#8 := by decide
theorem test_shlR : reg .gb (run (alu 0xFF#8 0x0F#8 0x00#8) 0x2456#16) = some 0x80#8 ∧
    reg .sr (run (alu 0xFF#8 0x0F#8 0x00#8) 0x2456#16) = some 0x02#8 := by decide
theorem test_shlI : reg .gb (run (alu 0x81#8 0#8 0x0C#8) 0x6451#16) = some 0x02#8 ∧
    reg .sr (run (alu 0x81#8 0#8 0x0C#8) 0x6451#16) = some 0x0C#8 := by decide
theorem test_shrR : reg .gb (run (alu 0x80#8 0x08#8 0x0D#8) 0x2856#16) = some 0x80#8 ∧
    reg .sr (run (alu 0x80#8 0x08#8 0x0D#8) 0x2856#16) = some 0x0E#8 := by decide
theorem test_shrI : reg .gb (run (alu 0x80#8 0#8 0x00#8) 0x6857#16) = some 0x01#8 ∧
    reg .sr (run (alu 0x80#8 0#8 0x00#8) 0x6857#16) = some 0x00#8 := by decide
/-- R62 read literally: a no-operation, `pc` advances (log 5). -/
theorem test_res1011R : step (at300.withFetchWord 16 0x2C00) =
    .next ((at300.placeWord 0x0300#16 0x2C00#16).setPc 0x0302#16) := by rfl
/-- R62 read literally: a no-operation, `pc` advances (log 5). -/
theorem test_res1011I : step (at300.withFetchWord 16 0x6FFF) =
    .next ((at300.placeWord 0x0300#16 0x6FFF#16).setPc 0x0302#16) := by rfl
theorem test_movR : reg .gb (run (alu 0x12#8 0x00#8 0x0F#8) 0x3056#16) = some 0x00#8 ∧
    reg .sr (run (alu 0x12#8 0x00#8 0x0F#8) 0x3056#16) = some 0x0F#8 := by decide
/-- The immediate 100000 extends to 0xE0, no flag written (R53, R87). -/
theorem test_movI : reg .gb (run (alu 0x00#8 0#8 0x0F#8) 0x7250#16) = some 0xE0#8 ∧
    reg .sr (run (alu 0x00#8 0#8 0x0F#8) 0x7250#16) = some 0x0F#8 := by decide
theorem test_mvhR : reg .gb (run (alu 0x15#8 0xFD#8 0x00#8) 0x3456#16) = some 0x55#8 ∧
    reg .sr (run (alu 0x15#8 0xFD#8 0x00#8) 0x3456#16) = some 0x00#8 := by decide
theorem test_mvhI : reg .gb (run (alu 0xFF#8 0#8 0x00#8) 0x7452#16) = some 0xBF#8 ∧
    reg .sr (run (alu 0xFF#8 0#8 0x00#8) 0x7452#16) = some 0x00#8 := by decide
theorem test_tsbR : reg .gb (run (alu 0x81#8 0x39#8 0x0C#8) 0x3856#16) = some 0x81#8 ∧
    reg .sr (run (alu 0x81#8 0x39#8 0x0C#8) 0x3856#16) = some 0x0E#8 := by decide
theorem test_tsbI : reg .gb (run (alu 0x81#8 0#8 0x0C#8) 0x7B59#16) = some 0x81#8 ∧
    reg .sr (run (alu 0x81#8 0#8 0x0C#8) 0x7B59#16) = some 0x0E#8 := by decide
theorem test_sebR : reg .gb (run (alu 0x80#8 0xF7#8 0x00#8) 0x3C56#16) = some 0x00#8 ∧
    reg .sr (run (alu 0x80#8 0xF7#8 0x00#8) 0x3C56#16) = some 0x01#8 := by decide
theorem test_sebI : reg .gb (run (alu 0x00#8 0#8 0x00#8) 0x7C5F#16) = some 0x80#8 ∧
    reg .sr (run (alu 0x00#8 0#8 0x00#8) 0x7C5F#16) = some 0x02#8 := by decide

theorem test_nop : step (at300.withFetchWord 16 0x3055) =
    .next ((at300.placeWord 0x0300#16 0x3055#16).setPc 0x0302#16) := by rfl
theorem test_add_same_register : reg .gb (run (alu 0x06#8 0#8 0#8) 0x0055#16) = some 0x0C#8 := by decide
theorem test_mov_sr_zero : reg .sr (run (alu 0#8 0#8 0xFF#8) 0x7020#16) = some 0x00#8 := by decide
theorem test_mov_from_sr : reg .gb (run (alu 0#8 0#8 0x09#8) 0x3052#16) = some 0x09#8 := by decide
theorem test_cmp_sr_sr : reg .sr (run (alu 0#8 0#8 0x05#8) 0x1022#16) = some 0x09#8 := by decide
theorem test_add_low_byte_only : reg .geL (run { at300 with ge := 0x01F0#16, gc := 0x20#8 } 0x0086#16) = some 0x10#8 ∧
    reg .geH (run { at300 with ge := 0x01F0#16, gc := 0x20#8 } 0x0086#16) = some 0x01#8 := by decide
/-- The free order (log 6): a step of `add sr, gb` answers a next state, whichever the order. -/
theorem test_add_sr_completes : pcAfter (run (alu 0x01#8 0#8 0#8) 0x0025#16) = some 0x0302#16 := by rfl
/-- Section 3, last row: `add sr, gb` is refused under SR_DEST_ORDER = refuse (R121). -/
theorem test_add_sr_refused_under_refuse :
    commitUnder .refuse .sr (aluAdd 0#8 1#8 false) at300 = .refused .srDestination := by rfl
/-- D12: flags_last overwrites the four flag bits of the result 0x90, result_last leaves it. -/
theorem test_sr_destination_orders :
    srDestByte .flagsLast 0x90#8 (.cvnz false false true false) = 0x92#8 ∧
    srDestByte .resultLast 0x90#8 (.cvnz false false true false) = 0x90#8 := by decide

/-! Section 5: control transfers. -/

theorem test_jmpr_forward : pcAfter (run at300 0xC873#16) = some 0x0308#16 := by decide
theorem test_jmpr_wraps : pcAfter (run { at300 with pc := 0xFFF0#16 } 0xC97F#16) = some 0x0030#16 := by decide
theorem test_jmp_drops_bit_0 : pcAfter (run { at300 with gh := 0x1235#16 } 0xDC75#16) = some 0x123E#16 := by decide
theorem test_jmp_wraps : pcAfter (run { at300 with ge := 0x0001#16 } 0xD37F#16) = some 0xFFFE#16 := by decide
theorem test_jmpbl_low_end : pcAfter (run at300 0xC270#16) = some 0x0000#16 := by decide
theorem test_jmpbl_high_end : pcAfter (run at300 0xC17F#16) = some 0x007E#16 := by decide
theorem test_jmpbh_low_end : pcAfter (run at300 0xC670#16) = some 0x0080#16 := by decide
theorem test_jmpbh_high_end : pcAfter (run at300 0xC57F#16) = some 0x00FE#16 := by decide
theorem test_call : pcAfter (run { at300 with gf := 0x0400#16 } 0xF470#16) = some 0x0400#16 ∧
    raAfter (run { at300 with gf := 0x0400#16 } 0xF470#16) = some 0x0302#16 := by decide
theorem test_callr_taken : pcAfter (run { at300 with sr := 0x01#8, ra := 0x1111#16 } 0xE834#16) = some 0x030A#16 ∧
    raAfter (run { at300 with sr := 0x01#8, ra := 0x1111#16 } 0xE834#16) = some 0x0302#16 := by decide
theorem test_callr_not_taken : pcAfter (run { at300 with ra := 0x1111#16 } 0xE834#16) = some 0x0302#16 ∧
    raAfter (run { at300 with ra := 0x1111#16 } 0xE834#16) = some 0x1111#16 := by decide
theorem test_clbl : pcAfter (run at300 0xE072#16) = some 0x0044#16 ∧
    raAfter (run at300 0xE072#16) = some 0x0302#16 := by decide
theorem test_clbl_low_end : pcAfter (run { at300 with pc := 0x8000#16 } 0xE270#16) = some 0x0000#16 ∧
    raAfter (run { at300 with pc := 0x8000#16 } 0xE270#16) = some 0x8002#16 := by decide
theorem test_clbh : pcAfter (run at300 0xE77F#16) = some 0x00BE#16 ∧
    raAfter (run at300 0xE77F#16) = some 0x0302#16 := by decide
theorem test_ret_drops_bit_0 : pcAfter (run { at300 with pc := 0x0400#16, ra := 0x0303#16 } 0xCC70#16) = some 0x0302#16 ∧
    raAfter (run { at300 with pc := 0x0400#16, ra := 0x0303#16 } 0xCC70#16) = some 0x0303#16 := by decide
theorem test_ret_immediate : pcAfter (run { at300 with pc := 0x0400#16, ra := 0x0302#16 } 0xCC71#16) = some 0x0304#16 ∧
    raAfter (run { at300 with pc := 0x0400#16, ra := 0x0302#16 } 0xCC71#16) = some 0x0302#16 := by decide
theorem test_clret : pcAfter (run { at300 with pc := 0x0400#16, ra := 0x0302#16 } 0xEC70#16) = some 0x0302#16 ∧
    raAfter (run { at300 with pc := 0x0400#16, ra := 0x0302#16 } 0xEC70#16) = some 0x0402#16 := by decide
theorem test_clret_immediate : pcAfter (run { at300 with pc := 0x0400#16, ra := 0x0303#16 } 0xEC71#16) = some 0x0304#16 ∧
    raAfter (run { at300 with pc := 0x0400#16, ra := 0x0303#16 } 0xEC71#16) = some 0x0402#16 := by decide
/-- Section 4, rows 0110 and 1100: conditions 000 to 111 in order (R96, D31; log 10). -/
theorem test_conditions_with_v_set :
    [Cond.c, .v, .n, .z, .g, .ge, .gu, .always].map (fun cc => condHolds cc 0x06#8) =
      [false, true, true, false, false, false, false, true] ∧
    [Cond.c, .v, .n, .z, .g, .ge, .gu, .always].map (fun cc => condHolds cc 0x0C#8) =
      [true, true, false, false, true, true, true, true] := by decide

/-! Section 6: loads and stores. -/

/-- A state with one written byte of data. -/
def withByte (s : State) (a : Word) (v : Byte) : State := s.writeByte a v

theorem test_ld_gh : reg .gc (run (withByte { at300 with gh := 0x0300#16 } 0x02FF#16 0x5A#8) 0x9F6F#16) = some 0x5A#8 := by decide
theorem test_ld_into_its_base : reg .geL (run (withByte { at300 with ge := 0x0340#16 } 0x0340#16 0x99#8) 0x9080#16) = some 0x99#8 ∧
    reg .geH (run (withByte { at300 with ge := 0x0340#16 } 0x0340#16 0x99#8) 0x9080#16) = some 0x03#8 := by decide
theorem test_ldr : reg .gb (run (withByte at300 0x0304#16 0xC3#8) 0x8852#16) = some 0xC3#8 := by decide
theorem test_lds : reg .gb (run (withByte { at300 with sp := 0xF0#8 } 0x01F0#16 0x42#8) 0x8050#16) = some 0x42#8 ∧
    reg .sp (run (withByte { at300 with sp := 0xF0#8 } 0x01F0#16 0x42#8) 0x8050#16) = some 0xF0#8 := by decide
theorem test_lds_sr : reg .sr (run (withByte { at300 with sp := 0xF0#8 } 0x01F0#16 0xA5#8) 0x8020#16) = some 0xA5#8 := by decide
theorem test_ldf : reg .gc (run (withByte { at300 with fp := 0x80#8 } 0x017C#16 0x01#8) 0x876C#16) = some 0x01#8 := by decide
theorem test_st_gf : byteAfter 0x801F (run { at300 with gf := 0x8000#16, gb := 0x7E#8 } 0xB55F#16) = some 0x7E#8 := by decide
theorem test_st_pc : byteAfter 0x0302 (run { at300 with gb := 0x30#8 } 0xA850#16) = some 0x30#8 := by decide
theorem test_sts : byteAfter 0x01F1 (run { at300 with sp := 0xF0#8, ra := 0x0302#16 } 0xA011#16) = some 0x03#8 := by decide
theorem test_sts_below_page : byteAfter 0x00FF (run { at300 with gb := 0x11#8 } 0xA35F#16) = some 0x11#8 := by decide
theorem test_stf : byteAfter 0x0182 (run { at300 with fp := 0x80#8, gd := 0x11#8 } 0xA472#16) = some 0x11#8 := by decide

/-! ## The right kinds of state come out of memory operations -/

theorem test_write_keeps_order :
    Memory.write (Memory.write (Memory.write [] 7 1#8) 3 2#8) 5 3#8 = [(3, 2#8), (5, 3#8), (7, 1#8)] := by decide
theorem test_wf_refuses_unsorted :
    Memory.wf [(5, 0#8), (3, 0#8)] = false ∧ Memory.wf [(3, 0#8), (3, 1#8)] = false ∧
    Memory.wf [(65536, 0#8)] = false ∧ Memory.wf [(65535, 0#8)] = true := by decide

/-! ## Witnesses: a state and operands that meet each obligation's hypotheses -/

/-- `at300` with a word placed at `pc`. -/
def holding (w : Word) : State := at300.placeWord 0x0300#16 w

theorem witness_DecodeUndoesEncode :
    (Instr.ld (.reg .gh) .gc 0b111111#6).wellFormed = true ∧ Instr.nop.wellFormed = true ∧
    (Instr.clret true .always 0b100000#6).wellFormed = true := by decide
theorem witness_EncodeUndoesDecode :
    (0x3FFF#16).toNat < 0x4000 ∧ ¬ (0x4000#16).toNat < 0x4000 := by decide
theorem witness_ReservedWordsAreCode1011 :
    decodeWord 0x2C00#16 = .res1011R .raL .raL ∧ decodeWord 0x2FFF#16 = .res1011R .ghH .ghH ∧
    decodeWord 0x6C00#16 = .res1011I .raL 0#6 ∧ decodeWord 0x6FFF#16 = .res1011I .ghH 0b111111#6 := by decide
theorem witness_StepRunsDecodedInstruction :
    decodeWord ((holding 0x0056#16).readByte 0x0300#16 ++ (holding 0x0056#16).readByte 0x0301#16) = .addR .gb .gc ∧
    (Instr.addR .gb .gc).wellFormed = true ∧
    encodeBytes (.addR .gb .gc) =
      [(holding 0x0056#16).readByte 0x0300#16, (holding 0x0056#16).readByte 0x0301#16] := by decide
theorem witness_StepKeepsInvariant :
    (holding 0x0056#16).Inv ∧ ∃ t, step (holding 0x0056#16) = .next t := ⟨by decide, _, rfl⟩
theorem witness_SelfJumpIsFixedPoint : (holding 0xCB7F#16).ended := by decide
theorem witness_OnlyControlMovesPc :
    isControl (decodeWord (holding 0x0056#16).wordAtPc) = false ∧ ∃ t, step (holding 0x0056#16) = .next t :=
  ⟨by decide, _, rfl⟩
theorem witness_StoreIntoNextInstructionIsFetched :
    (holding 0xA850#16).wordAtPc = encode (.st .pc .gb 0#6) := by decide
theorem witness_OnlyStoresWriteMemory :
    (∃ t, exec (.sts .gb 0#6) at300 = .next t) ∧ storeAddr (.sts .gb 0#6) at300 ≠ some 0x0101#16 ∧
    (∃ t, exec (.movI .gb 0#6) at300 = .next t) ∧ storeAddr (.movI .gb 0#6) at300 ≠ some 0x0100#16 :=
  ⟨⟨_, rfl⟩, by decide, ⟨_, rfl⟩, by decide⟩
theorem witness_RegistersChangeOnlyAsNamed :
    ((∃ t, exec (.callr false .always 4#6) at300 = .next t) ∧ DReg.sp ≠ .sr ∧
      destination (.callr false .always 4#6) ≠ some .sp ∧ DReg.sp ≠ .raL ∧ DReg.sp ≠ .raH) ∧
    ((∃ t, exec (.addR .geL .gb) at300 = .next t) ∧ destination (.addR .geL .gb) ≠ some .geH ∧
      isCall (.addR .geL .gb) = false) := ⟨⟨⟨_, rfl⟩, by decide⟩, ⟨_, rfl⟩, by decide⟩
theorem witness_StatusChangesOnlyByFlagsOrName :
    ((∃ t, exec (.addR .gb .gc) at300 = .next t) ∧ destination (.addR .gb .gc) ≠ some .sr) ∧
    ((∃ t, exec (.lds .gb 0#6) at300 = .next t) ∧ destination (.lds .gb 0#6) ≠ some .sr ∧
      writesFlags (.lds .gb 0#6) = false) := ⟨⟨⟨_, rfl⟩, by decide⟩, ⟨_, rfl⟩, by decide⟩
theorem witness_ControlTargetIsWrappedSum : at300.pcEven := by decide
theorem witness_FixedBasesReachTheBootloader :
    controlTarget .bl 0b100000#6 at300 = 0x0000#16 ∧ controlTarget .bl 0b011111#6 at300 = 0x007E#16 ∧
    controlTarget .bh 0b100000#6 at300 = 0x0080#16 ∧ controlTarget .bh 0b011111#6 at300 = 0x00FE#16 := by decide

theorem witness_AddAndAdcGiveSumAndFlags : DReg.ghH ≠ .sr := by decide
theorem witness_SubAndSbcGiveDifferenceAndFlags : DReg.ghH ≠ .sr := by decide
theorem witness_AndCombinesBitsAndSetsNz : DReg.ghH ≠ .sr ∧ (7 : Nat) < 8 := by decide
theorem witness_OrCombinesBitsAndSetsNz : DReg.ghH ≠ .sr ∧ (7 : Nat) < 8 := by decide
theorem witness_XorCombinesBitsAndSetsNz : DReg.ghH ≠ .sr ∧ (7 : Nat) < 8 := by decide
theorem witness_ShlMultipliesAndSetsNz : DReg.ghH ≠ .sr := by decide
theorem witness_ShrDividesAndSetsNz : DReg.ghH ≠ .sr := by decide
theorem witness_SebWritesOneBit :
    DReg.ghH ≠ .sr ∧ (7 : Nat) < 8 ∧ 7 = (immByte 0b001111#6).toNat % 8 ∧
    6 ≠ (immByte 0b001111#6).toNat % 8 := by decide
theorem witness_NopOnlyAdvancesPc : (holding 0x3055#16).wordAtPc = 0x3055#16 := by decide
theorem witness_UnsignedConditionsAfterCmp :
    (∃ t, exec (.cmpR .gb .gc) (alu 0xFF#8 0x01#8 0#8) = .next t) ∧
    (∃ t, exec (.cmpI .gb 1#6) (alu 0xFF#8 0#8 0#8) = .next t) := ⟨⟨_, rfl⟩, _, rfl⟩
theorem witness_SignedConditionsAfterCmp :
    (∃ t, exec (.cmpR .gb .gc) (alu 0x05#8 0x03#8 0#8) = .next t ∧ srV t.sr = false) ∧
    (∃ t, exec (.cmpR .gb .gc) (alu 0x7F#8 0x80#8 0#8) = .next t ∧ srV t.sr = true) ∧
    (∃ t, exec (.cmpI .gb 3#6) (alu 0x05#8 0#8 0#8) = .next t ∧ srV t.sr = false) ∧
    (∃ t, exec (.cmpI .gb 1#6) (alu 0x80#8 0#8 0#8) = .next t ∧ srV t.sr = true) :=
  ⟨⟨_, rfl, by decide⟩, ⟨_, rfl, by decide⟩, ⟨_, rfl, by decide⟩, _, rfl, by decide⟩

theorem witness_JumpRegisterSetsPc :
    Bool.xor (condHolds .z 0x01#8) false = true ∧ Bool.xor (condHolds .z 0x01#8) true = false := by decide
theorem witness_JumpRelativeSetsPc :
    Bool.xor (condHolds .z 0x01#8) false = true ∧ Bool.xor (condHolds .z 0x01#8) true = false := by decide
theorem witness_JumpBootloaderSetsPc :
    Bool.xor (condHolds .z 0x01#8) false = true ∧ Bool.xor (condHolds .z 0x01#8) true = false := by decide
theorem witness_CallRegisterLinksAndSetsPc : Bool.xor (condHolds .z 0x00#8) true = true := by decide
theorem witness_CallRelativeLinksAndSetsPc : Bool.xor (condHolds .z 0x00#8) true = true := by decide
theorem witness_CallBootloaderLinksAndSetsPc : Bool.xor (condHolds .z 0x00#8) true = true := by decide
theorem witness_ReturnJumpsThroughRa :
    Bool.xor (condHolds .z 0x01#8) false = true ∧ Bool.xor (condHolds .z 0x01#8) true = false := by decide
theorem witness_ClretExchangesPcAndRa : Bool.xor (condHolds .z 0x00#8) true = true := by decide
theorem witness_CallNotTakenWritesNothing : Bool.xor (condHolds .z 0x00#8) false = false := by decide
theorem witness_LoadReturnsLatestStore :
    ∃ t, exec (.st .gb .gc 1#6) (alu 0x10#8 0xAA#8 0#8) = .next t ∧
      dataAddr .gb 1#6 t = dataAddr .gb 1#6 (alu 0x10#8 0xAA#8 0#8) ∧
      dataAddr .gb 2#6 t ≠ dataAddr .gb 1#6 (alu 0x10#8 0xAA#8 0#8) := ⟨_, rfl, by decide, by decide⟩
theorem witness_LaunchRefusesOddPc :
    at300.pc.toNat % 2 = 0 ∧ (at300.setPc 0x0301#16).pc.toNat % 2 = 1 := by decide
theorem witness_RegionKindsOtherThanRamRefuse :
    (fun _ : Word => RegionKind.ram) 0#16 = .ram ∧ (fun _ : Word => RegionKind.rom) 0#16 = .rom ∧
    (fun _ : Word => RegionKind.device) 0#16 = .device ∧
    (fun _ : Word => RegionKind.absent) 0#16 = .absent := by decide
theorem witness_StatusDestinationRefusedUnderRefuse :
    DReg.gb ≠ .sr ∧ (∀ r f, AluOut.result 0#8 ≠ .both r f) ∧
    (∀ r f, AluOut.flags (.nz true false) ≠ .both r f) := ⟨by decide, nofun, nofun⟩

end Sys2Proof.Tests
end

section
/-! PROOFS. What every instruction keeps: the invariant, `pc`, the registers and the status byte, each read off
`exec_cases` once; then the step (rules R17, R19, R20, R22 to R25, R36). -/

namespace Sys2Proof.Machine

variable {s t : State} {i : Instr}

/-! ## The invariant (R20, R36; log 4) -/

/-- A control target is even from an even `pc`: every base is even, and so is the displacement (R20, R94). -/
theorem controlTarget_even (base : CBase) (imm : Imm6) (h : s.pcEven) :
    (controlTarget base imm s).getLsbD 0 = false := by
  refine even_add ?_ (immDisplacement_even imm)
  cases base with
  | bl | bh => simp [cBaseAddr]
  | pc => exact h
  | ra => exact masked_even s.ra
  | reg r => exact masked_even (s.readW r)

@[simp] theorem State.pc_link (save : Bool) : (link save s).pc = s.pc := by cases save <;> rfl

@[simp] theorem State.sr_link (save : Bool) : (link save s).sr = s.sr := by cases save <;> rfl

@[simp] theorem State.mem_link (save : Bool) : (link save s).mem = s.mem := by cases save <;> rfl

/-- No byte register but the two bytes of `ra` changes in a link write, and none when nothing is saved (R95). -/
theorem State.readD_link_of_ne {save : Bool} {k : DReg} (h : save = true → k ≠ .raL ∧ k ≠ .raH) :
    (link save s).readD k = s.readD k := by
  cases save with
  | false => rfl
  | true => exact State.readD_setRa_of_ne s (h rfl).1 (h rfl).2 _

/-- A state with the same `pc` and memory meets the invariant too. -/
theorem inv_of_same_pc_mem (hs : s.Inv) (hpc : t.pc = s.pc) (hmem : t.mem = s.mem) : t.Inv := by
  rw [State.Inv, State.pcEven, State.memWf, hpc, hmem]
  exact hs

/-- Only a control transfer writes `pc`, with an even target, and only a store writes memory, at a 16-bit
address; so the invariant is kept. -/
theorem exec_keeps_inv (hs : s.Inv) (h : exec i s = .next t) : t.Inv := by
  rcases exec_cases s i with ⟨k, out, e, -⟩ | ⟨r, f, e, -⟩ | ⟨e, -⟩ | ⟨x, v, e, -⟩ | ⟨a, v, e, -⟩ |
    ⟨base, imm, e, -⟩ <;> cases h.symm.trans e
  · exact inv_of_same_pc_mem hs (State.pc_commit s k out) (State.mem_commit s k out)
  · exact hs
  · exact hs
  · exact inv_of_same_pc_mem hs (State.pc_writeD s x v) (State.mem_writeD s x v)
  · exact ⟨hs.1, Memory.wf_write hs.2 a v⟩
  · refine ⟨controlTarget_even base imm hs.1, ?_⟩
    rw [State.memWf, State.mem_setPc, State.mem_link]
    exact hs.2

/-- Advancing `pc` by 2 keeps the invariant (R19, R20). -/
theorem inv_setPc_nextPc (hs : s.Inv) : (s.setPc (nextPc s.pc)).Inv :=
  ⟨nextPc_even hs.1, hs.2⟩

/-- Settles O8: the fetch advances `pc` by 2, and the instruction keeps the invariant. -/
theorem stepKeepsInvariant : Obligations.StepKeepsInvariant := by
  intro s t hs h
  rw [step_eq] at h
  exact exec_keeps_inv (inv_setPc_nextPc hs) h

/-! ## Frames of `pc`, the byte registers and `sr` -/

/-- Outside format C an instruction leaves `pc` where the step put it (R19). -/
theorem exec_pc_of_not_control (hi : isControl i = false) (h : exec i s = .next t) : t.pc = s.pc := by
  rcases exec_cases s i with ⟨k, out, e, -⟩ | ⟨r, f, e, -⟩ | ⟨e, -⟩ | ⟨x, v, e, -⟩ | ⟨a, v, e, -⟩ |
    ⟨base, imm, e, hc, -⟩ <;> cases h.symm.trans e
  · exact State.pc_commit s k out
  · rfl
  · rfl
  · exact State.pc_writeD s x v
  · rfl
  · cases hi.symm.trans hc

/-- Settles O12: the step has advanced `pc` by 2 before the instruction, which leaves it there. -/
theorem onlyControlMovesPc : Obligations.OnlyControlMovesPc := by
  intro s t hi h
  rw [step_eq] at h
  rw [exec_pc_of_not_control hi h]
  simp [nextPc]

/-- Settles O15: each shape of `exec_cases` writes at most the named destination, `sr`, or the link. -/
theorem registersChangeOnlyAsNamed : Obligations.RegistersChangeOnlyAsNamed := by
  intro i s t k h hsr hd hcall
  rcases exec_cases s i with ⟨j, out, e, -, -, -, hout⟩ | ⟨r, f, e, -⟩ | ⟨e, -⟩ | ⟨x, v, e, -, hx, -⟩ |
    ⟨a, v, e, -⟩ | ⟨base, imm, e, -⟩ <;> cases h.symm.trans e
  · rcases hout with ⟨r, f, rfl, -, hj, -⟩ | ⟨r, rfl, hj⟩ | ⟨f, rfl, -⟩
    · exact State.readD_commit_of_ne s (fun hkj => hd (hj.trans (congrArg some hkj.symm))) hsr _
    · exact State.readD_commit_of_ne s (fun hkj => hd (hj.trans (congrArg some hkj.symm))) hsr _
    · exact State.readD_setSr_of_ne s hsr _
  · exact State.readD_setSr_of_ne s hsr _
  · rfl
  · exact State.readD_writeD_of_ne s (fun hkx => hd (hx.trans (congrArg some hkx.symm))) v
  · exact State.readD_writeByte s k a v
  · rw [State.readD_setPc, State.readD_link_of_ne hcall]

/-- A flag write keeps bits 7:4 of the status byte (R25, D11; log 15). -/
@[simp] theorem srHigh_apply (f : FlagWrite) (b : Byte) : srHigh (f.apply b) = srHigh b := by
  cases f with
  | cvnz c v n z => exact srHigh_cvnz b c v n z
  | nz n z => exact srHigh_nz b n z

/-- Settles O16: an operation with flags ends in a flag write, and every other shape that does not name `sr`
leaves it alone. -/
theorem statusChangesOnlyByFlagsOrName : Obligations.StatusChangesOnlyByFlagsOrName := by
  intro i s t h hd
  have unchanged {u : State} (e : u.sr = s.sr) :
      srHigh u.sr = srHigh s.sr ∧ (writesFlags i = false → u.sr = s.sr) :=
    ⟨congrArg srHigh e, fun _ => e⟩
  rcases exec_cases s i with ⟨k, out, e, -, -, -, hout⟩ | ⟨r, f, e, -, -, -, hsr, -⟩ | ⟨e, -⟩ |
    ⟨x, v, e, -, hx, -⟩ | ⟨a, v, e, -⟩ | ⟨base, imm, e, -⟩ <;> cases h.symm.trans e
  · rcases hout with ⟨r, f, rfl, -, -, hw⟩ | ⟨r, rfl, hk⟩ | ⟨f, rfl, -, hw⟩
    · exact ⟨srHigh_apply f s.sr, fun hnot => nomatch hw.symm.trans hnot⟩
    · exact unchanged (State.sr_writeD_of_ne s (fun hsr => hd (hsr ▸ hk)) r)
    · exact ⟨srHigh_apply f s.sr, fun hnot => nomatch hw.symm.trans hnot⟩
  · exact absurd hsr hd
  · exact unchanged rfl
  · exact unchanged (State.sr_writeD_of_ne s (fun hsr => hd (hsr ▸ hx)) v)
  · exact unchanged rfl
  · exact unchanged (State.sr_link (isCall i))

/-! ## The step runs what the decoder reads (R19, R34) -/

/-- The decoder answers a well-formed instruction from its word: the format's picture has one reading, and
well-formedness leaves out the terms whose word has a named form (R58, R59, R69; log 23). -/
theorem decodeWord_encode (h : i.wellFormed = true) : decodeWord (encode i) = i := by
  cases i
  case nop => decide
  case movR x y =>
    rw [encode, decodeWord_wordA]
    exact if_pos h
  case ld base x imm =>
    rw [encode, decodeWord_load]
    cases base with
    | gb | reg => rfl
    | sp | fp | pc => cases h
  case st base x imm =>
    rw [encode, decodeWord_store]
    cases base with
    | pc | gb | reg => rfl
    | sp | fp => cases h
  case ldr | lds | ldf => exact decodeWord_load _ _ _
  case sts | stf => exact decodeWord_store _ _ _
  case jmp | jmpr | jmpbl | jmpbh | ret => exact decodeWord_jump _ _ _ _
  case call | callr | clbl | clbh | clret => exact decodeWord_call _ _ _ _
  case addR | adcR | subR | sbcR | cmpR | cmcR | andR | orR | xorR | shlR | shrR | res1011R | mvhR | tsbR
      | sebR => exact decodeWord_wordA _ _ _
  all_goals exact decodeWord_wordIA _ _ _

/-- The bytes at `pc` are those of a word exactly as fetch reads it (R34; log 1). -/
theorem wordAtPc_of_bytesOfWord {w : Word}
    (h : bytesOfWord w = [s.readByte s.pc, s.readByte (s.pc + 1#16)]) : s.wordAtPc = w := by
  simp only [bytesOfWord, List.cons.injEq, and_true] at h
  obtain ⟨hlow, hhigh⟩ := h
  have hw := wordOfBytes_of_word Params.insnByteOrder w
  rw [hlow, hhigh] at hw
  exact hw

/-- Settles O7: the step is `exec` of the decoded word, and encoded bytes at `pc` decode to their instruction. -/
theorem stepRunsDecodedInstruction : Obligations.StepRunsDecodedInstruction := by
  refine ⟨fun s i h => ?_, fun s i hi h => ?_⟩
  · subst h
    exact step_eq s
  · rw [step_eq, wordAtPc_of_bytesOfWord h, decodeWord_encode hi]
    rfl

/-! ## The register file (R15, R16) -/

/-- Settles O17: each code's row by computation, the read-back by the register law. -/
theorem dModeTableNamesRegisterBytes : Obligations.DModeTableNamesRegisterBytes :=
  ⟨fun _ => ⟨rfl, rfl, rfl, rfl, rfl, rfl, rfl, rfl, rfl, rfl, rfl, rfl, rfl, rfl, rfl, rfl⟩,
    fun s k v => State.readD_writeD_self s (DReg.ofCode k) v⟩

/-- Settles O18: the register laws, and each pair put back together. -/
theorem byteWritesLeaveOtherBytes : Obligations.ByteWritesLeaveOtherBytes := by
  refine ⟨fun s k j v => ⟨?_, State.pc_writeD s k v, State.mem_writeD s k v⟩, fun s => ?_⟩
  · split
    · next h => rw [h, State.readD_writeD_self]
    · next h => exact State.readD_writeD_of_ne s h v
  · exact ⟨(hiByte_append_loByte s.ra).symm, (hiByte_append_loByte s.ge).symm,
      (hiByte_append_loByte s.gf).symm, (hiByte_append_loByte s.gg).symm, (hiByte_append_loByte s.gh).symm⟩

/-! ## Targets of the fixed bases (R27, R94) -/

/-- The control displacement as a number: twice the signed immediate, modulo 65,536 (R53). -/
theorem immDisplacement_toNat (imm : Imm6) :
    (immDisplacement imm).toNat = if imm.toNat < 32 then 2 * imm.toNat else 65408 + 2 * imm.toNat := by
  revert imm; decide

/-- From a base that is even and not near either end of the address space, the 64 immediates reach exactly the even
addresses from 64 below to 62 above it (R94). -/
theorem exists_displacement_iff (base a : Word) (heven : base.toNat % 2 = 0) (hlo : 64 ≤ base.toNat)
    (hhi : base.toNat < 65472) :
    (∃ imm, base + immDisplacement imm = a) ↔
      a.toNat % 2 = 0 ∧ base.toNat - 64 ≤ a.toNat ∧ a.toNat ≤ base.toNat + 62 := by
  constructor
  · rintro ⟨imm, rfl⟩
    have := imm.isLt
    rw [BitVec.toNat_add, immDisplacement_toNat]
    split <;> omega
  · rintro ⟨ha, h1, h2⟩
    refine ⟨BitVec.ofNat 6 ((a.toNat + 128 - base.toNat) / 2), BitVec.eq_of_toNat_eq ?_⟩
    rw [BitVec.toNat_add, immDisplacement_toNat, BitVec.toNat_ofNat]
    split <;> omega

/-- Settles O22: the bases are 0x0040 and 0x00C0. -/
theorem fixedBasesReachTheBootloader : Obligations.FixedBasesReachTheBootloader := by
  intro s a
  have hbl := exists_displacement_iff 0x0040#16 a (by decide) (by decide) (by decide)
  have hbh := exists_displacement_iff 0x00C0#16 a (by decide) (by decide) (by decide)
  exact ⟨by simpa [controlTarget, cBaseAddr] using hbl, by simpa [controlTarget, cBaseAddr] using hbh⟩

end Sys2Proof.Machine
end

section
/-! PROOFS. The adder's instructions: sum, difference and compare in integer terms, a destination `sr`, and the
two-byte chains (rules R15, R24, R72, R74 to R80). -/

namespace Sys2Proof.Machine

variable {s t u : State} {x : DReg}

/-! ## Frames -/

/-- Writing an operation's outputs changes the destination and `sr` only (R70). -/
theorem commit_onlyRegistersChange (s : State) (x : DReg) (out : AluOut) :
    OnlyRegistersChange [x, .sr] s (s.commit x out) := by
  refine ⟨fun k hk => ?_, State.readByte_commit s x out, State.pc_commit s x out⟩
  simp only [List.mem_cons, List.not_mem_nil, or_false, not_or] at hk
  exact State.readD_commit_of_ne s hk.1 hk.2 out

/-- Writing `sr` changes `sr` only. -/
theorem setSr_onlyRegistersChange (s : State) (v : Byte) : OnlyRegistersChange [.sr] s (s.setSr v) :=
  ⟨fun _ hk => State.readD_setSr_of_ne s (fun e => hk (List.mem_singleton.mpr e)) v, fun _ => rfl, rfl⟩

theorem OnlyRegistersChange.mono {ks js : List DReg} (h : OnlyRegistersChange ks s t) (hsub : ks ⊆ js) :
    OnlyRegistersChange js s t :=
  ⟨fun k hk => h.1 k (fun hk' => hk (hsub hk')), h.2⟩

theorem OnlyRegistersChange.trans {ks : List DReg} (h : OnlyRegistersChange ks s t)
    (h' : OnlyRegistersChange ks t u) : OnlyRegistersChange ks s u := by
  obtain ⟨hreg, hmem, hpc⟩ := h
  obtain ⟨hreg', hmem', hpc'⟩ := h'
  exact ⟨fun k hk => (hreg' k hk).trans (hreg k hk), fun a => (hmem' a).trans (hmem a), hpc'.trans hpc⟩

/-! ## The adder's flags in the status byte (R22, R72) -/

/-- Flags n and z of the adder describe its result (R72, D9; log 16). -/
theorem adder_nzDescribe {a b old : Byte} {cin : Bool} (h : t.sr = (adder a b cin).flags.apply old) :
    NzDescribe (adder a b cin).r t := by
  rw [NzDescribe, h, AdderOut.flags, srN_cvnz, srZ_cvnz, adder_n, adder_z]
  exact ⟨BitVec.msb_eq_true_iff_two_mul_ge.trans (by omega), by simp [← BitVec.toNat_inj]⟩

/-- The end of `add` and `adc` (R72, R75, R76). -/
theorem sumResult_commit (hx : x ≠ .sr) (b : Byte) (cin : Bool) :
    SumResult x b cin.toNat s
      (s.commit x (.both (adder (s.readD x) b cin).r (adder (s.readD x) b cin).flags)) := by
  have hsr := State.sr_commit_both s x (adder (s.readD x) b cin).r (adder (s.readD x) b cin).flags
  rw [SumResult, State.readD_commit_both_self s hx]
  refine ⟨adder_r_toNat _ _ _, ?_, ?_, adder_nzDescribe hsr, ?_, commit_onlyRegistersChange s x _⟩
  · rw [hsr, AdderOut.flags, srC_cvnz, adder_c, decide_eq_true_iff]
  · rw [hsr, AdderOut.flags, srV_cvnz, adder_v, OutsideSignedByte]
  · rw [hsr, srHigh_apply]

/-- Settles O23: both operations end in the adder's outputs, with carry in 0 for `add` and flag c for `adc`. -/
theorem addAndAdcGiveSumAndFlags : Obligations.AddAndAdcGiveSumAndFlags := by
  intro s x hx
  exact ⟨fun y => ⟨_, commitUnder_both_of_ne s _ hx _ _, sumResult_commit hx (s.readD y) false⟩,
    fun imm => ⟨_, commitUnder_both_of_ne s _ hx _ _, sumResult_commit hx (immByte imm) false⟩,
    fun y => ⟨_, commitUnder_both_of_ne s _ hx _ _, sumResult_commit hx (s.readD y) (srC s.sr)⟩,
    fun imm => ⟨_, commitUnder_both_of_ne s _ hx _ _, sumResult_commit hx (immByte imm) (srC s.sr)⟩⟩

/-! ## Differences (R77 to R80) -/

/-- Adding the complement and a carry is subtracting with the borrow that the carry does not pay (R77, R78). -/
theorem adder_not_r_toNat (a b : Byte) (cin : Bool) :
    (adder a (~~~b) cin).r.toNat = (a.toNat + 256 - b.toNat - (1 - cin.toNat)) % 256 := by
  have hb := b.isLt
  have hc := Bool.toNat_le cin
  rw [adder_r_toNat, BitVec.toNat_not]
  omega

/-- Flag c of a subtraction says that no borrow occurred (D10; log 16). -/
theorem adder_not_c (a b : Byte) (cin : Bool) :
    (adder a (~~~b) cin).c = true ↔ b.toNat + (1 - cin.toNat) ≤ a.toNat := by
  have hb := b.isLt
  have hc := Bool.toNat_le cin
  rw [adder_c, decide_eq_true_iff, BitVec.toNat_not]
  omega

/-- Flag v of a subtraction is two's-complement overflow of the difference (R72, D10; log 16). -/
theorem adder_not_v (a b : Byte) (cin : Bool) :
    (adder a (~~~b) cin).v = true ↔
      OutsideSignedByte (a.toInt - b.toInt - ((1 - cin.toNat : Nat) : Int)) := by
  have hb : (~~~b).toInt = -b.toInt - 1 := by
    have := b.isLt
    simp only [BitVec.toInt_eq_toNat_cond, BitVec.toNat_not]
    split <;> split <;> omega
  have hc := Bool.toNat_le cin
  rw [adder_v, hb, OutsideSignedByte]
  omega

/-- The flags that `sub`, `sbc`, `cmp` and `cmc` write are those of the difference (R72, R77 to R80). -/
theorem differenceFlags_of_sr (b : Byte) (cin : Bool)
    (h : t.sr = (adder (s.readD x) (~~~b) cin).flags.apply s.sr) :
    DifferenceFlags x b (1 - cin.toNat) s t := by
  have hr : BitVec.ofNat 8 ((s.readD x).toNat + 256 - b.toNat - (1 - cin.toNat)) =
      (adder (s.readD x) (~~~b) cin).r :=
    BitVec.eq_of_toNat_eq ((BitVec.toNat_ofNat _ _).trans (adder_not_r_toNat _ _ _).symm)
  refine ⟨?_, ?_, hr ▸ adder_nzDescribe h, by rw [h, srHigh_apply]⟩
  · rw [h, AdderOut.flags, srC_cvnz, adder_not_c]
  · rw [h, AdderOut.flags, srV_cvnz, adder_not_v]

/-- The end of `sub` and `sbc` (R77, R78). -/
theorem differenceResult_commit (hx : x ≠ .sr) (b : Byte) (cin : Bool) :
    DifferenceResult x b (1 - cin.toNat) s
      (s.commit x (.both (adder (s.readD x) (~~~b) cin).r (adder (s.readD x) (~~~b) cin).flags)) := by
  rw [DifferenceResult, State.readD_commit_both_self s hx]
  exact ⟨adder_not_r_toNat _ _ _, differenceFlags_of_sr b cin rfl, commit_onlyRegistersChange s x _⟩

/-- Settles O24: the carry in is 1 for `sub` and flag c for `sbc`. -/
theorem subAndSbcGiveDifferenceAndFlags : Obligations.SubAndSbcGiveDifferenceAndFlags := by
  intro s x hx
  exact ⟨fun y => ⟨_, commitUnder_both_of_ne s _ hx _ _, differenceResult_commit hx (s.readD y) true⟩,
    fun imm => ⟨_, commitUnder_both_of_ne s _ hx _ _, differenceResult_commit hx (immByte imm) true⟩,
    fun y => ⟨_, commitUnder_both_of_ne s _ hx _ _, differenceResult_commit hx (s.readD y) (srC s.sr)⟩,
    fun imm => ⟨_, commitUnder_both_of_ne s _ hx _ _, differenceResult_commit hx (immByte imm) (srC s.sr)⟩⟩

/-- The end of `cmp` and `cmc` (R79, R80). -/
theorem compareResult_setSr (x : DReg) (b : Byte) (cin : Bool) :
    CompareResult x b (1 - cin.toNat) s
      (s.setSr ((adder (s.readD x) (~~~b) cin).flags.apply s.sr)) :=
  ⟨differenceFlags_of_sr b cin rfl, setSr_onlyRegistersChange s _⟩

/-- Settles O25: the carry in is 1 for `cmp` and flag c for `cmc`. -/
theorem cmpAndCmcSetFlagsOnly : Obligations.CmpAndCmcSetFlagsOnly := by
  intro s x
  exact ⟨fun y => ⟨_, commitUnder_flags s Params.srDest x _, compareResult_setSr x (s.readD y) true⟩,
    fun imm => ⟨_, commitUnder_flags s Params.srDest x _, compareResult_setSr x (immByte imm) true⟩,
    fun y => ⟨_, commitUnder_flags s Params.srDest x _, compareResult_setSr x (s.readD y) (srC s.sr)⟩,
    fun imm => ⟨_, commitUnder_flags s Params.srDest x _, compareResult_setSr x (immByte imm) (srC s.sr)⟩⟩

/-! ## A result and flags into `sr` (R24, R74; log 6) -/

/-- Whatever the free order is, `sr` ends as one of the two bytes. -/
theorem statusResult_commitUnder_sr (s : State) (r : Byte) (f : FlagWrite) :
    StatusResult (.both r f) (commitUnder Params.srDest .sr (.both r f) s) s :=
  ⟨_, r, f, rfl, rfl, srDestByte_cases Config.srDestOrder r f, setSr_onlyRegistersChange s _⟩

/-- Settles O35: each of the ten operations answers a result and flags, in both forms. -/
theorem aluResultIntoStatusRegister : Obligations.AluResultIntoStatusRegister := by
  intro s
  and_intros <;> exact fun _ => statusResult_commitUnder_sr s _ _

/-! ## Two-byte chains (R15) -/

theorem loByte_toNat (r : Word) : (loByte r).toNat = r.toNat % 256 := by
  simp [loByte, BitVec.extractLsb'_toNat]

theorem hiByte_toNat (r : Word) : (hiByte r).toNat = r.toNat / 256 := by
  have := r.isLt
  simp [hiByte, BitVec.extractLsb'_toNat, Nat.shiftRight_eq_div_pow]
  omega

/-- The carry out of the low bytes, added into the high bytes, makes the 16-bit sum (R15, R76). -/
theorem add_adc_chain (ht : SumResult .geL (s.readD .gfL) 0 s t)
    (hu : SumResult .geH (t.readD .gfH) (srC t.sr).toNat t u) :
    u.ge = s.ge + s.gf ∧ (srC u.sr = true ↔ 65536 ≤ s.ge.toNat + s.gf.toNat) ∧
      OnlyRegistersChange [.geL, .geH, .sr] s u := by
  obtain ⟨hlow, hc, -, -, -, hframe⟩ := ht
  obtain ⟨hhigh, hc', -, -, -, hframe'⟩ := hu
  rw [hframe.1 .geH (by decide), hframe.1 .gfH (by decide)] at hhigh hc'
  rw [← hframe'.1 .geL (by decide)] at hlow
  rw [← Bool.toNat_eq_one] at hc
  simp only [State.readD, loByte_toNat, hiByte_toNat] at hlow hhigh hc hc'
  have := u.ge.isLt
  have := s.ge.isLt
  have := s.gf.isLt
  have := Bool.toNat_le (srC t.sr)
  refine ⟨BitVec.eq_of_toNat_eq ?_, ?_, (hframe.mono (by simp)).trans (hframe'.mono (by simp))⟩
  · rw [BitVec.toNat_add]
    omega
  · rw [hc']
    omega

/-- The borrow of the low bytes, taken off the high bytes, makes the 16-bit comparison (R15, R80). -/
theorem cmp_cmc_chain (ht : CompareResult .geL (s.readD .gfL) 0 s t)
    (hu : CompareResult .geH (t.readD .gfH) (1 - (srC t.sr).toNat) t u) :
    (srC u.sr = true ↔ s.gf.toNat ≤ s.ge.toNat) ∧ OnlyRegistersChange [.sr] s u := by
  obtain ⟨⟨hc, -⟩, hframe⟩ := ht
  obtain ⟨⟨hc', -⟩, hframe'⟩ := hu
  rw [hframe.1 .geH (by decide), hframe.1 .gfH (by decide)] at hc'
  rw [← Bool.toNat_eq_one] at hc
  simp only [State.readD, loByte_toNat, hiByte_toNat] at hc hc'
  have := Bool.toNat_le (srC t.sr)
  refine ⟨?_, hframe.trans hframe'⟩
  rw [hc']
  omega

/-- Settles O39: the low instruction's flag c is the high instruction's carry in. -/
theorem byteChainsWorkOnSixteenBits : Obligations.ByteChainsWorkOnSixteenBits := by
  refine ⟨fun s => ?_, fun s => ?_⟩
  · obtain ⟨hadd, -⟩ := addAndAdcGiveSumAndFlags s .geL (by decide)
    obtain ⟨t, et, ht⟩ := hadd .gfL
    obtain ⟨-, -, hadc, -⟩ := addAndAdcGiveSumAndFlags t .geH (by decide)
    obtain ⟨u, eu, hu⟩ := hadc .gfH
    exact ⟨t, u, et, eu, add_adc_chain ht hu⟩
  · obtain ⟨hcmp, -⟩ := cmpAndCmcSetFlagsOnly s .geL
    obtain ⟨t, et, ht⟩ := hcmp .gfL
    obtain ⟨-, -, hcmc, -⟩ := cmpAndCmcSetFlagsOnly t .geH
    obtain ⟨u, eu, hu⟩ := hcmc .gfH
    exact ⟨t, u, et, eu, cmp_cmc_chain ht hu⟩

end Sys2Proof.Machine
end

section
/-! PROOFS. Memory: the decoder undoes the encoder, data and control addresses in integer terms, what writes memory,
loads after stores, and steps whose word at `pc` is known (rules R31, R32, R34, R38, R39, R134). -/

namespace Sys2Proof.Machine

variable {s t : State} {i : Instr}

/-- Settles O1: the two bytes make the word again, and the word decodes to the well-formed instruction. -/
theorem decodeUndoesEncode : Obligations.DecodeUndoesEncode := by
  intro i rest h
  rw [encodeBytes, decodeBytes_bytesOfWord, decodeWord_encode h]

/-! ## What each instruction of format M answers (R109, R114) -/

theorem exec_ld_eq (base : MBase) (x : DReg) (imm : Imm6) (s : State) :
    exec (.ld base x imm) s = .next (s.writeD x (s.readByte (dataAddr base imm s))) :=
  runLoad_eq s base x imm

theorem exec_st_eq (base : MBase) (x : DReg) (imm : Imm6) (s : State) :
    exec (.st base x imm) s = .next (s.writeByte (dataAddr base imm s) (s.readD x)) :=
  runStore_eq s base x imm

/-- Settles O57: the store writes one byte, and the load reads the memory it left. -/
theorem loadReturnsLatestStore : Obligations.LoadReturnsLatestStore := by
  intro s t base base' x y imm imm' h
  refine ⟨_, exec_ld_eq base' y imm' t, ?_⟩
  rw [State.readD_writeD_self]
  have ht : t = s.writeByte (dataAddr base imm s) (s.readD x) := by
    cases h.symm.trans (exec_st_eq base x imm s)
    rfl
  generalize dataAddr base' imm' t = a
  rw [ht]
  split
  · next ha => rw [ha, State.readByte_writeByte_self]
  · next ha => exact State.readByte_writeByte_of_ne s ha _

/-! ## What writes memory (R32, D20) -/

/-- Only the byte that an instruction stores to can change: every other shape of `exec_cases` leaves memory. -/
theorem exec_readByte_of_not_stored (h : exec i s = .next t) {a : Word} (ha : storeAddr i s ≠ some a) :
    t.readByte a = s.readByte a := by
  rcases exec_cases s i with ⟨k, out, e, -⟩ | ⟨r, f, e, -⟩ | ⟨e, -⟩ | ⟨x, v, e, -⟩ | ⟨b, v, e, -, hb⟩ |
    ⟨base, imm, e, -⟩ <;> cases h.symm.trans e
  · exact State.readByte_commit s k out a
  · rfl
  · rfl
  · exact State.readByte_writeD s x v a
  · exact State.readByte_writeByte_of_ne s (fun hab => ha (hb.trans (congrArg some hab.symm))) v
  · exact State.readByte_congr (State.mem_link (isCall i)) a

/-- Settles O14: the memory laws for one write, and the frame of `exec`. -/
theorem onlyStoresWriteMemory : Obligations.OnlyStoresWriteMemory :=
  ⟨fun s a v => ⟨State.readByte_writeByte_self s a v, fun _ hb => State.readByte_writeByte_of_ne s hb v⟩,
    fun _ _ _ h _ ha => exec_readByte_of_not_stored h ha⟩

/-- Settles O59: each access by the kind of region at its address. -/
theorem regionKindsOtherThanRamRefuse : Obligations.RegionKindsOtherThanRamRefuse := by
  intro kind s a v
  unfold loadUnder storeUnder
  cases kind a with
  | ram | rom | device | absent => simp

/-! ## Addresses as integers (R38, R39, R53) -/

/-- A wrapped sum with a signed offset, in integer terms (D5; log 13). -/
theorem toNat_add_toInt (base offset : Word) :
    ((base + offset).toNat : Int) = (base.toNat + offset.toInt) % 65536 := by
  rw [BitVec.toNat_add, BitVec.toInt_eq_toNat_cond]
  split <;> omega

theorem immOffset_toInt (imm : Imm6) : (immOffset imm).toInt = imm.toInt :=
  BitVec.toInt_signExtend_of_le (by decide)

theorem immDisplacement_toInt (imm : Imm6) : (immDisplacement imm).toInt = 2 * imm.toInt := by
  revert imm; decide

/-- A page base with a zero-extended byte does not reach the end of the address space (R38). -/
theorem toNat_pageBase_add (page : Word) (b : Byte) (h : page.toNat < 65280) :
    (page + b.zeroExtend 16).toNat = page.toNat + b.toNat := by
  have := b.isLt
  rw [BitVec.toNat_add, BitVec.toNat_setWidth]
  omega

theorem mBaseAddr_toNat (base : MBase) (s : State) : ((mBaseAddr base s).toNat : Int) = dataBase base s := by
  cases base with
  | sp | fp | gb => exact congrArg Int.ofNat (toNat_pageBase_add _ _ (by decide))
  | pc | reg => rfl

theorem cBaseAddr_toNat (base : CBase) (s : State) :
    ((cBaseAddr base s).toNat : Int) = controlBase base s := by
  cases base with
  | bl | bh | pc => rfl
  | ra | reg => exact congrArg Int.ofNat (masked_toNat _)

/-- Settles O20: the wrapped sum of the base and the sign-extended immediate. -/
theorem dataAddressIsWrappedSum : Obligations.DataAddressIsWrappedSum := by
  intro base imm s
  rw [dataAddr, toNat_add_toInt, mBaseAddr_toNat, immOffset_toInt]

/-- Settles O21: the wrapped sum of the base and the doubled immediate, both even. -/
theorem controlTargetIsWrappedSum : Obligations.ControlTargetIsWrappedSum := by
  intro base imm s
  refine ⟨?_, controlTarget_even base imm⟩
  rw [controlTarget, toNat_add_toInt, cBaseAddr_toNat, immDisplacement_toInt]

/-! ## Steps whose word at `pc` is known (R19, R45, R134) -/

/-- The step at the word of a well-formed instruction executes it, with `pc` advanced (R19). -/
theorem step_of_wordAtPc_eq_encode (hw : s.wordAtPc = encode i) (hi : i.wellFormed = true) :
    step s = exec i (s.setPc (nextPc s.pc)) := by
  rw [step_eq, hw, decodeWord_encode hi]

/-- The self-jump's displacement is one word back from the next instruction, to itself (R94, R134). -/
theorem nextPc_add_selfJump_displacement (a : Word) : nextPc a + immDisplacement 0b111111#6 = a := by
  have hcancel : 2#16 + immDisplacement 0b111111#6 = 0#16 := by decide
  rw [nextPc, BitVec.add_assoc, hcancel, BitVec.add_zero]

theorem exec_selfJump (s : State) :
    exec (.jmpr false .always 0b111111#6) (s.setPc (nextPc s.pc)) = .next s :=
  calc exec (.jmpr false .always 0b111111#6) (s.setPc (nextPc s.pc))
      = .next (s.setPc (nextPc s.pc + immDisplacement 0b111111#6)) := rfl
    _ = .next s := by rw [nextPc_add_selfJump_displacement, State.setPc_self]

/-- Settles O11: 0xCB7F is the word of the self-jump. -/
theorem selfJumpIsFixedPoint : Obligations.SelfJumpIsFixedPoint := by
  intro s h
  have hw : s.wordAtPc = encode (.jmpr false .always 0b111111#6) := h.trans (by decide)
  rw [step_of_wordAtPc_eq_encode hw rfl, exec_selfJump]

/-- A write over the first byte of the word at `pc` keeps its second byte (R32, R45). -/
theorem wordAtPc_writeByte_pc (s : State) (v : Byte) :
    (s.writeByte s.pc v).wordAtPc = v ++ s.readByte (s.pc + 1#16) := by
  have hne : s.pc + 1#16 ≠ s.pc := by simp
  rw [State.wordAtPc, State.pc_writeByte, State.readByte_writeByte_self, State.readByte_writeByte_of_ne s hne]

/-- Settles O13: the store's base is the next instruction's address. -/
theorem storeIntoNextInstructionIsFetched : Obligations.StoreIntoNextInstructionIsFetched := by
  intro s x h
  have haddr : dataAddr .pc 0#6 (s.setPc (nextPc s.pc)) = nextPc s.pc := BitVec.add_zero _
  have hsecond : s.pc + 3#16 = nextPc s.pc + 1#16 := (BitVec.add_assoc s.pc 2#16 1#16).symm
  have hstep : step s = .next ((s.setPc (nextPc s.pc)).writeByte (nextPc s.pc) (s.readD x)) := by
    rw [step_of_wordAtPc_eq_encode h rfl, exec_st_eq, haddr, State.readD_setPc]
  refine ⟨_, hstep, rfl, State.readByte_writeByte_self _ _ _, ?_⟩
  rw [hsecond]
  exact wordAtPc_writeByte_pc (s.setPc (nextPc s.pc)) (s.readD x)

end Sys2Proof.Machine
end

section
/-! PROOFS. The encoding read from the word: every word is its format's picture, the encoder undoes the decoder, the
reserved code and the named forms; that every step completes; the immediate's extensions; `shr` and `tsb` (rules R47 to
R69, R53, R65, R85, R86, R90). -/

namespace Sys2Proof

/-! ## Every word is the picture of its format (R47 to R52) -/

/-- A word of format A is the picture of its fields and of its bits 9:8 (R48, R63). -/
theorem pictureA_of_fields (w : Word) (h : fieldFormat w = 0#2) :
    pictureA (fieldOp w) (w.extractLsb' 8 2) (DReg.ofCode (fieldX w)) (DReg.ofCode (fieldY w)) = w := by
  have e0 : w.getLsbD 14 = false := by simpa [fieldFormat] using congrArg (fun v => v.getLsbD 0) h
  have e1 : w.getLsbD 15 = false := by simpa [fieldFormat] using congrArg (fun v => v.getLsbD 1) h
  clear h
  apply BitVec.eq_of_getLsbD_eq; intro i hi
  interval_cases i <;>
    simp only [pictureA, fieldOp, fieldX, fieldY, DReg.code_ofCode, BitVec.getLsbD_append,
      BitVec.getLsbD_extractLsb'] <;> simp_all

/-- The four formats leave no word out (R47, R65). -/
theorem word_cases (w : Word) :
    (∃ o u x y, w = pictureA o u x y) ∨ (∃ o x imm, w = wordIA o x imm) ∨
      (∃ save base x imm, w = wordM save base x imm) ∨
      (∃ save base neg cc imm, w = wordC save base neg cc imm) := by
  have hformat : fieldFormat w = 0#2 ∨ fieldFormat w = 1#2 ∨ fieldFormat w = 2#2 ∨ fieldFormat w = 3#2 := by
    generalize fieldFormat w = f
    revert f; decide
  rcases hformat with h | h | h | h
  · exact .inl ⟨_, _, _, _, (pictureA_of_fields w h).symm⟩
  · exact .inr (.inl ⟨_, _, _, (wordIA_of_fields w h).symm⟩)
  · exact .inr (.inr (.inl ⟨_, _, _, _, (wordM_of_fields w h).symm⟩))
  · exact .inr (.inr (.inr ⟨_, _, _, _, _, (wordC_of_fields w h).symm⟩))

/-- Clearing bits 9:8 of a format-A word gives the word an assembler writes (R63, D6; log 14). -/
theorem pictureA_and_mask (o : BitVec 4) (u : BitVec 2) (x y : DReg) :
    pictureA o u x y &&& 0xFCFF#16 = wordA o x y := by
  simpa using (wordA_of_fields (pictureA o u x y) (fieldFormat_pictureA o u x y)).symm

/-- The words below 0x4000 are those of format A (R47). -/
theorem lt_0x4000_iff_fieldFormat (w : Word) : w.toNat < 0x4000 ↔ fieldFormat w = 0#2 := by
  rw [← BitVec.toNat_inj, fieldFormat_toNat]
  simp only [BitVec.toNat_ofNat]
  omega

/-! ## Encoding what each format's decoder answers (R58, R59, R69) -/

/-- Among the moves, only `mov gb, gb` has another name (R92; log 23). -/
theorem eq_gb_of_movUnnamed_false {x y : DReg} (h : ¬ movUnnamed x y = true) : x = .gb ∧ y = .gb := by
  simpa [movUnnamed] using h

theorem encode_nop : encode .nop = wordA 0b1100#4 .gb .gb := by decide

theorem decodeA_mov (x y : DReg) :
    decodeA 0b1100#4 x y = if movUnnamed x y then .movR x y else .nop := rfl

/-- Code 1100 is encoded back whether it is read as a move or as `nop` (R92). -/
theorem encode_decodeA_mov (x y : DReg) : encode (decodeA 0b1100#4 x y) = wordA 0b1100#4 x y := by
  rw [decodeA_mov]
  split
  · rfl
  · next h =>
    obtain ⟨rfl, rfl⟩ := eq_gb_of_movUnnamed_false h
    exact encode_nop

theorem encode_decodeA (o : BitVec 4) (x y : DReg) : encode (decodeA o x y) = wordA o x y := by
  obtain ⟨⟨o, ho⟩⟩ := o
  interval_cases o
  pick_goal 13
  · exact encode_decodeA_mov x y
  all_goals rfl

theorem encode_decodeIA (o : BitVec 4) (x : DReg) (imm : Imm6) :
    encode (decodeIA o x imm) = wordIA o x imm := by
  obtain ⟨⟨o, ho⟩⟩ := o
  interval_cases o <;> rfl

theorem encode_decodeLoad (base : MBase) (x : DReg) (imm : Imm6) :
    encode (decodeLoad base x imm) = wordM false base x imm := by
  cases base <;> rfl

theorem encode_decodeStore (base : MBase) (x : DReg) (imm : Imm6) :
    encode (decodeStore base x imm) = wordM true base x imm := by
  cases base <;> rfl

theorem encode_decodeJump (base : CBase) (neg : Bool) (cc : Cond) (imm : Imm6) :
    encode (decodeJump base neg cc imm) = wordC false base neg cc imm := by
  cases base <;> rfl

theorem encode_decodeCall (base : CBase) (neg : Bool) (cc : Cond) (imm : Imm6) :
    encode (decodeCall base neg cc imm) = wordC true base neg cc imm := by
  cases base <;> rfl

/-- Settles O2: the decoder reads each picture's fields, and the encoder puts them back. -/
theorem encodeUndoesDecode : Obligations.EncodeUndoesDecode := by
  intro w
  simp only [lt_0x4000_iff_fieldFormat]
  rcases word_cases w with ⟨o, u, x, y, rfl⟩ | ⟨o, x, imm, rfl⟩ | ⟨save, base, x, imm, rfl⟩ |
    ⟨save, base, neg, cc, imm, rfl⟩
  · simp [decodeWord_pictureA, encode_decodeA, pictureA_and_mask]
  · simp [decodeWord_wordIA, encode_decodeIA]
  · cases save with
    | false => simp [decodeWord_load, encode_decodeLoad]
    | true => simp [decodeWord_store, encode_decodeStore]
  · cases save with
    | false => simp [decodeWord_jump, encode_decodeJump]
    | true => simp [decodeWord_call, encode_decodeCall]

/-! ## What each format's decoder answers is well-formed (R65, R69; log 23) -/

/-- Code 1100 is read as a move only where the move has no other name (R92; log 23). -/
theorem wellFormed_decodeA_mov (x y : DReg) : (decodeA 0b1100#4 x y).wellFormed = true := by
  rw [decodeA_mov]
  split
  · assumption
  · rfl

theorem wellFormed_decodeA (o : BitVec 4) (x y : DReg) : (decodeA o x y).wellFormed = true := by
  obtain ⟨⟨o, ho⟩⟩ := o
  interval_cases o
  pick_goal 13
  · exact wellFormed_decodeA_mov x y
  all_goals rfl

theorem wellFormed_decodeIA (o : BitVec 4) (x : DReg) (imm : Imm6) :
    (decodeIA o x imm).wellFormed = true := by
  obtain ⟨⟨o, ho⟩⟩ := o
  interval_cases o <;> rfl

/-- Settles O3: each format's decoder answers the named form where there is one. -/
theorem decoderAnswersWellFormed : Obligations.DecoderAnswersWellFormed := by
  intro w
  rcases word_cases w with ⟨o, u, x, y, rfl⟩ | ⟨o, x, imm, rfl⟩ | ⟨save, base, x, imm, rfl⟩ |
    ⟨save, base, neg, cc, imm, rfl⟩
  · rw [decodeWord_pictureA, wellFormed_decodeA]
  · rw [decodeWord_wordIA, wellFormed_decodeIA]
  · cases save with
    | false => rw [decodeWord_load]; cases base <;> rfl
    | true => rw [decodeWord_store]; cases base <;> rfl
  · cases save with
    | false => rw [decodeWord_jump]; cases base <;> rfl
    | true => rw [decodeWord_call]; cases base <;> rfl

/-! ## The reserved code 1011 (R59, R62) -/

/-- The format and the operation code of a word are those of the instruction read from it. -/
theorem fields_encode_decodeWord (w : Word) :
    fieldFormat (encode (decodeWord w)) = fieldFormat w ∧ fieldOp (encode (decodeWord w)) = fieldOp w := by
  rw [encodeUndoesDecode w]
  split
  · next h =>
    rw [lt_0x4000_iff_fieldFormat] at h
    rw [← pictureA_of_fields w h, pictureA_and_mask, wordA]
    simp
  · exact ⟨rfl, rfl⟩

theorem exists_decodeWord_eq_res1011R_iff (w : Word) :
    (∃ x y, decodeWord w = .res1011R x y) ↔ fieldFormat w = 0#2 ∧ fieldOp w = 0b1011#4 := by
  constructor
  · rintro ⟨x, y, h⟩
    obtain ⟨hf, ho⟩ := fields_encode_decodeWord w
    rw [← hf, ← ho, h, encode, wordA]
    simp
  · rintro ⟨hf, ho⟩
    exact ⟨_, _, by rw [← pictureA_of_fields w hf, decodeWord_pictureA, ho]; rfl⟩

theorem exists_decodeWord_eq_res1011I_iff (w : Word) :
    (∃ x imm, decodeWord w = .res1011I x imm) ↔ fieldFormat w = 1#2 ∧ fieldOp w = 0b1011#4 := by
  constructor
  · rintro ⟨x, imm, h⟩
    obtain ⟨hf, ho⟩ := fields_encode_decodeWord w
    rw [← hf, ← ho, h, encode]
    simp
  · rintro ⟨hf, ho⟩
    exact ⟨_, _, by rw [← wordIA_of_fields w hf, decodeWord_wordIA, ho]; rfl⟩

/-- Settles O4: the format and operation fields are the word's leading six bits. -/
theorem reservedWordsAreCode1011 : Obligations.ReservedWordsAreCode1011 := by
  intro w
  rw [exists_decodeWord_eq_res1011R_iff, exists_decodeWord_eq_res1011I_iff]
  simp only [← BitVec.toNat_inj, fieldFormat_toNat, fieldOp_toNat, BitVec.toNat_ofNat]
  omega

end Sys2Proof

namespace Sys2Proof.Machine

/-! ## Every instruction completes, and the forms whose effect is another's (R65, R69, R86) -/

/-- Every shape of `exec_cases` is a next state. -/
theorem exec_completes (i : Instr) (s : State) : ∃ t, exec i s = .next t := by
  rcases exec_cases s i with ⟨k, out, e, -⟩ | ⟨r, f, e, -⟩ | ⟨e, -⟩ | ⟨x, v, e, -⟩ | ⟨a, v, e, -⟩ |
    ⟨base, imm, e, -⟩ <;> exact ⟨_, e⟩

/-- Settles O10: the fetch always answers a word, and the instruction it decodes to completes. -/
theorem everyStepCompletes : Obligations.EveryStepCompletes := by
  intro s
  rw [step_eq]
  exact exec_completes _ _

/-- Settles O6: each named form's word and meaning are written as those of the general form. -/
theorem namedFormsAreGeneralForms : Obligations.NamedFormsAreGeneralForms :=
  ⟨⟨encode_nop, fun _ => rfl⟩, fun _ _ => ⟨rfl, fun _ => rfl⟩, fun _ _ => ⟨rfl, fun _ => rfl⟩,
    fun _ _ => ⟨rfl, fun _ => rfl⟩, fun _ _ => ⟨rfl, fun _ => rfl⟩, fun _ _ => ⟨rfl, fun _ => rfl⟩,
    fun _ _ _ => rfl, fun _ _ _ => rfl⟩

/-- Settles O36: both forms are `reserved1011` under the model's setting. -/
theorem reserved1011RunsAsNoOperation : Obligations.Reserved1011RunsAsNoOperation :=
  ⟨fun s _ _ => reserved1011_eq s, fun s _ _ => reserved1011_eq s, fun _ => rfl⟩

/-! ## The immediate's extensions (R53) -/

theorem immByte_toInt (imm : Imm6) : (immByte imm).toInt = imm.toInt :=
  BitVec.toInt_signExtend_of_le (by decide)

/-- Settles O19: both widths keep the signed value, and the displacement doubles it. -/
theorem immediateExtensions : Obligations.ImmediateExtensions := by
  intro imm
  exact ⟨BitVec.le_toInt imm, Int.le_of_lt_add_one BitVec.toInt_lt, immByte_toInt imm, immOffset_toInt imm,
    immDisplacement_toInt imm⟩

/-! ## Operations whose flags n and z describe the result (R22, R73) -/

variable {s t : State} {x : DReg}

theorem nzDescribe_of_nzOf {r old : Byte} (h : t.sr = (nzOf r).apply old) : NzDescribe r t := by
  rw [NzDescribe, h, nzOf, srN_nz, srZ_nz]
  exact ⟨BitVec.msb_eq_true_iff_two_mul_ge.trans (by omega), by simp [← BitVec.toNat_inj]⟩

/-- The end of an operation that writes a result with its flags n and z: c, v and bits 7:4 of `sr` stay (R70, R73). -/
theorem nzResult_commit (hx : x ≠ .sr) (r : Byte) : NzResult x r s (s.commit x (.both r (nzOf r))) :=
  ⟨State.readD_commit_both_self s hx r _, nzDescribe_of_nzOf (State.sr_commit_both s x r _), srC_nz _ _ _,
    srV_nz _ _ _, srHigh_apply _ _, commit_onlyRegistersChange s x _⟩

/-! ## Bit numbers of operand 2 (R84, R85, R90, R91) -/

theorem lowIndex_eq (op2 : Byte) : lowIndex op2 = op2.toNat % 8 := by
  simp [lowIndex, BitVec.extractLsb'_toNat]

theorem highIndex_eq (op2 : Byte) : highIndex op2 = op2.toNat / 8 % 8 := by
  simp [highIndex, BitVec.extractLsb'_toNat, Nat.shiftRight_eq_div_pow]

/-! ## `shr` (R85) -/

/-- A right shift with zero fill is a division (D8; log 7). -/
theorem shrUnder_zero (a : Byte) (k : Nat) : shrUnder .zero a k = BitVec.ofNat 8 (a.toNat / 2 ^ k) := by
  apply BitVec.eq_of_toNat_eq
  have : a.toNat / 2 ^ k < 2 ^ 8 := (Nat.div_le_self _ _).trans_lt a.isLt
  rw [shrUnder, BitVec.toNat_ushiftRight, Nat.shiftRight_eq_div_pow, BitVec.toNat_ofNat, Nat.mod_eq_of_lt this]

theorem aluShr_eq (op1 op2 : Byte) (c : Bool) :
    aluShr op1 op2 c = .both (BitVec.ofNat 8 (op1.toNat / 2 ^ (op2.toNat % 8)))
      (nzOf (BitVec.ofNat 8 (op1.toNat / 2 ^ (op2.toNat % 8)))) := by
  rw [aluShr, Params.shrFill, shrUnder_zero, lowIndex_eq]

/-- What `shr` answers for either kind of operand 2, when the destination is not `sr`. -/
theorem commitUnder_aluShr (hx : x ≠ .sr) (op2 : Byte) (c : Bool) :
    ∃ t, commitUnder Params.srDest x (aluShr (s.readD x) op2 c) s = .next t ∧
      NzResult x (BitVec.ofNat 8 ((s.readD x).toNat / 2 ^ (op2.toNat % 8))) s t := by
  rw [aluShr_eq]
  exact ⟨_, commitUnder_both_of_ne s _ hx _ _, nzResult_commit hx _⟩

/-- Settles O30: code 1010 is `shr`, and both forms end in its quotient and flags. -/
theorem shrDividesAndSetsNz : Obligations.ShrDividesAndSetsNz :=
  ⟨fun u x y => decodeWord_pictureA _ u x y, fun x imm => decodeWord_wordIA _ x imm, fun s _ hx =>
    ⟨fun y => commitUnder_aluShr hx (s.readD y) (srC s.sr),
      fun imm => commitUnder_aluShr hx (immByte imm) (srC s.sr)⟩⟩

/-! ## `tsb` (R90) -/

theorem aluTsb_eq (op1 op2 : Byte) (c : Bool) :
    aluTsb op1 op2 c = .flags (.nz (op1.getLsbD (op2.toNat / 8 % 8)) (op1.getLsbD (op2.toNat % 8))) := by
  rw [aluTsb, Params.tsbNIndex, tsbN, highIndex_eq, lowIndex_eq]

/-- What `tsb` answers for either kind of operand 2: the two bits in flags n and z, no result (D32; log 11). -/
theorem commitUnder_aluTsb (s : State) (x : DReg) (op2 : Byte) (c : Bool) :
    ∃ t, commitUnder Params.srDest x (aluTsb (s.readD x) op2 c) s = .next t ∧ TestResult x op2 s t := by
  rw [aluTsb_eq]
  exact ⟨_, commitUnder_flags s _ x _, srZ_nz _ _ _, srN_nz _ _ _, srC_nz _ _ _, srV_nz _ _ _,
    srHigh_apply _ _, setSr_onlyRegistersChange s _⟩

/-- Settles O33: code 1110 is `tsb`, and both forms end in its flag write. -/
theorem tsbCopiesTwoBitsToFlags : Obligations.TsbCopiesTwoBitsToFlags :=
  ⟨fun u x y => decodeWord_pictureA _ u x y, fun x imm => decodeWord_wordIA _ x imm, fun s x =>
    ⟨fun y => commitUnder_aluTsb s x (s.readD y) (srC s.sr),
      fun imm => commitUnder_aluTsb s x (immByte imm) (srC s.sr)⟩⟩

end Sys2Proof.Machine
end

section
/-! PROOFS. The bitwise operations, `shl`, `seb`, `mov`, `mvh`, the pair that builds any byte, and `nop` (rules R81 to
R84, R87 to R89, R91, R92). -/

namespace Sys2Proof.Machine

variable {s t u : State} {x : DReg}

/-! ## A result given bit by bit, with its flags n and z (R73, R81 to R83, R91) -/

/-- An operation that writes `r` and its flags n and z completes, and `x` gets the bits that `r` has. -/
theorem commitUnder_nz_bits (hx : x ≠ .sr) {r : Byte} {bit : Nat → Bool}
    (hr : ∀ i < 8, r.getLsbD i = bit i) :
    ∃ t q, commitUnder Params.srDest x (.both r (nzOf r)) s = .next t ∧ NzResult x q s t ∧
      ∀ i < 8, q.getLsbD i = bit i :=
  ⟨_, r, commitUnder_both_of_ne s _ hx _ _, nzResult_commit hx r, hr⟩

/-- Settles O26: code 0110 is `and`, and both forms write the conjunction of the operands' bits. -/
theorem andCombinesBitsAndSetsNz : Obligations.AndCombinesBitsAndSetsNz :=
  ⟨fun u x y => decodeWord_pictureA _ u x y, fun x imm => decodeWord_wordIA _ x imm, fun _ _ hx =>
    ⟨fun _ => commitUnder_nz_bits hx fun _ _ => BitVec.getLsbD_and,
      fun _ => commitUnder_nz_bits hx fun _ _ => BitVec.getLsbD_and⟩⟩

/-- Settles O27: code 0111 is `or`, and both forms write the disjunction of the operands' bits. -/
theorem orCombinesBitsAndSetsNz : Obligations.OrCombinesBitsAndSetsNz :=
  ⟨fun u x y => decodeWord_pictureA _ u x y, fun x imm => decodeWord_wordIA _ x imm, fun _ _ hx =>
    ⟨fun _ => commitUnder_nz_bits hx fun _ _ => BitVec.getLsbD_or,
      fun _ => commitUnder_nz_bits hx fun _ _ => BitVec.getLsbD_or⟩⟩

/-- Settles O28: code 1000 is `xor`, and both forms write the exclusive or of the operands' bits. -/
theorem xorCombinesBitsAndSetsNz : Obligations.XorCombinesBitsAndSetsNz :=
  ⟨fun u x y => decodeWord_pictureA _ u x y, fun x imm => decodeWord_wordIA _ x imm, fun _ _ hx =>
    ⟨fun _ => commitUnder_nz_bits hx fun _ _ => BitVec.getLsbD_xor,
      fun _ => commitUnder_nz_bits hx fun _ _ => BitVec.getLsbD_xor⟩⟩

/-- The byte that `seb` writes: bit 3 of operand 2 at the bit it numbers, operand 1 elsewhere (R91). -/
theorem getLsbD_bitWritten (op1 op2 : Byte) {i : Nat} (hi : i < 8) :
    (bitWritten op1 op2).getLsbD i = if i = op2.toNat % 8 then op2.getLsbD 3 else op1.getLsbD i := by
  have hmask : (0x01#8 <<< lowIndex op2).getLsbD i = decide (i = op2.toNat % 8) := by
    rw [← BitVec.twoPow_eq, BitVec.getLsbD_twoPow, lowIndex_eq]
    simp [Nat.mod_lt, eq_comm]
  rw [bitWritten]
  cases op2.getLsbD 3 with
  | true =>
    rw [if_pos rfl, BitVec.getLsbD_or, hmask]
    by_cases hnum : i = op2.toNat % 8 <;> simp [hnum]
  | false =>
    rw [if_neg Bool.false_ne_true, BitVec.getLsbD_and, BitVec.getLsbD_not, hmask]
    by_cases hnum : i = op2.toNat % 8 <;> simp [hnum, hi]

/-- Settles O34: code 1111 is `seb`, and both forms write the byte with that one bit replaced. -/
theorem sebWritesOneBit : Obligations.SebWritesOneBit :=
  ⟨fun u x y => decodeWord_pictureA _ u x y, fun x imm => decodeWord_wordIA _ x imm, fun _ _ hx =>
    ⟨fun _ => commitUnder_nz_bits hx fun _ hi => getLsbD_bitWritten _ _ hi,
      fun _ => commitUnder_nz_bits hx fun _ hi => getLsbD_bitWritten _ _ hi⟩⟩

/-! ## `shl` (R84) -/

/-- A left shift is a multiplication modulo 256. -/
theorem shiftLeft_eq_ofNat_mul (a : Byte) (k : Nat) : a <<< k = BitVec.ofNat 8 (a.toNat * 2 ^ k) :=
  BitVec.eq_of_toNat_eq (by rw [BitVec.toNat_shiftLeft, BitVec.toNat_ofNat, Nat.shiftLeft_eq])

theorem aluShl_eq (op1 op2 : Byte) (c : Bool) :
    aluShl op1 op2 c = .both (BitVec.ofNat 8 (op1.toNat * 2 ^ (op2.toNat % 8)))
      (nzOf (BitVec.ofNat 8 (op1.toNat * 2 ^ (op2.toNat % 8)))) := by
  rw [aluShl, shiftLeft_eq_ofNat_mul, lowIndex_eq]

/-- What `shl` answers for either kind of operand 2, when the destination is not `sr`. -/
theorem commitUnder_aluShl (hx : x ≠ .sr) (op2 : Byte) (c : Bool) :
    ∃ t, commitUnder Params.srDest x (aluShl (s.readD x) op2 c) s = .next t ∧
      NzResult x (BitVec.ofNat 8 ((s.readD x).toNat * 2 ^ (op2.toNat % 8))) s t := by
  rw [aluShl_eq]
  exact ⟨_, commitUnder_both_of_ne s _ hx _ _, nzResult_commit hx _⟩

/-- Settles O29: code 1001 is `shl`, and both forms end in its product and flags. -/
theorem shlMultipliesAndSetsNz : Obligations.ShlMultipliesAndSetsNz :=
  ⟨fun u x y => decodeWord_pictureA _ u x y, fun x imm => decodeWord_wordIA _ x imm, fun s _ hx =>
    ⟨fun y => commitUnder_aluShl hx (s.readD y) (srC s.sr),
      fun imm => commitUnder_aluShl hx (immByte imm) (srC s.sr)⟩⟩

/-! ## A result without flags (R24, R87, R88) -/

/-- A register write changes that register only, `sr` included. -/
theorem plainResult_writeD (s : State) (x : DReg) (r : Byte) : PlainResult x r s (s.writeD x r) :=
  ⟨State.readD_writeD_self s x r,
    fun _ hk => State.readD_writeD_of_ne s (fun e => hk (List.mem_singleton.mpr e)) r,
    State.readByte_writeD s x r, State.pc_writeD s x r⟩

/-- An operation with a result only completes for every destination, whatever the setting for `sr` is (R24). -/
theorem commitUnder_plain (s : State) (x : DReg) (r : Byte) :
    ∃ t, commitUnder Params.srDest x (.result r) s = .next t ∧ PlainResult x r s t :=
  ⟨_, commitUnder_result s _ x r, plainResult_writeD s x r⟩

/-- Of two plain results in the same register the second stays. -/
theorem PlainResult.trans {r q : Byte} (h : PlainResult x r s t) (h' : PlainResult x q t u) :
    PlainResult x q s u := by
  obtain ⟨-, hframe⟩ := h
  obtain ⟨hread, hframe'⟩ := h'
  exact ⟨hread, hframe.trans hframe'⟩

/-! ## `mov` (R87, R92) -/

/-- Code 1100 is `mov`, and `mov gb, gb` is read by its other name (R92; log 23). -/
theorem decodeA_mov_eq_ite (x y : DReg) :
    decodeA 0b1100#4 x y = if x = .gb ∧ y = .gb then .nop else .movR x y := by
  rw [decodeA_mov, movUnnamed]
  by_cases h : x = .gb ∧ y = .gb <;> simp [h]

/-- Settles O31: both forms answer operand 2 as a plain result. -/
theorem movCopiesOperand : Obligations.MovCopiesOperand :=
  ⟨fun u x y => (decodeWord_pictureA _ u x y).trans (decodeA_mov_eq_ite x y),
    fun x imm => decodeWord_wordIA _ x imm, fun s x =>
    ⟨fun y => commitUnder_plain s x (s.readD y), fun imm => commitUnder_plain s x (immByte imm)⟩⟩

/-! ## `mvh` (R88) -/

/-- Operand 2's low two bits over operand 1's low six, as a number (R88). -/
theorem aluMvh_eq (op1 op2 : Byte) (c : Bool) :
    aluMvh op1 op2 c = .result (BitVec.ofNat 8 (op2.toNat % 4 * 64 + op1.toNat % 64)) := by
  rw [aluMvh]
  congr 1
  apply BitVec.eq_of_toNat_eq
  have hlow : op1.toNat % 64 < 2 ^ 6 := Nat.mod_lt _ (by decide)
  simp only [BitVec.toNat_append, BitVec.extractLsb'_toNat, Nat.shiftRight_zero, BitVec.toNat_ofNat]
  rw [← Nat.shiftLeft_add_eq_or_of_lt hlow, Nat.shiftLeft_eq]
  omega

/-- What `mvh` answers for either kind of operand 2. -/
theorem commitUnder_aluMvh (s : State) (x : DReg) (op2 : Byte) (c : Bool) :
    ∃ t, commitUnder Params.srDest x (aluMvh (s.readD x) op2 c) s = .next t ∧
      PlainResult x (BitVec.ofNat 8 (op2.toNat % 4 * 64 + (s.readD x).toNat % 64)) s t := by
  rw [aluMvh_eq]
  exact commitUnder_plain s x _

/-- Settles O32: code 1101 is `mvh`, and both forms answer the byte with its top two bits replaced. -/
theorem mvhReplacesTopTwoBits : Obligations.MvhReplacesTopTwoBits :=
  ⟨fun u x y => decodeWord_pictureA _ u x y, fun x imm => decodeWord_wordIA _ x imm, fun s x =>
    ⟨fun y => commitUnder_aluMvh s x (s.readD y) (srC s.sr),
      fun imm => commitUnder_aluMvh s x (immByte imm) (srC s.sr)⟩⟩

/-! ## `mov` then `mvh` (R89) -/

/-- Extending the immediate keeps its six bits (R53, D5; log 13). -/
theorem immByte_toNat_mod_64 (imm : Imm6) : (immByte imm).toNat % 64 = imm.toNat := by
  revert imm; decide

/-- The two immediates of the pair hold the two parts of `K`, and put together they are `K` again (R89). -/
theorem mvh_of_mov_parts (K : Byte) :
    BitVec.ofNat 8 ((immByte (0b0000#4 ++ K.extractLsb' 6 2)).toNat % 4 * 64 +
      (immByte (K.extractLsb' 0 6)).toNat % 64) = K := by
  have hK := K.isLt
  have hlow : (immByte (K.extractLsb' 0 6)).toNat % 64 = K.toNat % 64 := by
    rw [immByte_toNat_mod_64, BitVec.extractLsb'_toNat, Nat.shiftRight_zero]
  have hhigh : (immByte (0b0000#4 ++ K.extractLsb' 6 2)).toNat % 64 = K.toNat / 64 % 4 := by
    rw [immByte_toNat_mod_64, BitVec.toNat_append, BitVec.extractLsb'_toNat, Nat.shiftRight_eq_div_pow]
    simp
  apply BitVec.eq_of_toNat_eq
  rw [BitVec.toNat_ofNat, hlow]
  omega

/-- Settles O38: `mov` leaves `K[5:0]` in `x`, and `mvh` puts `K[7:6]` over it. -/
theorem movThenMvhBuildsAnyByte : Obligations.MovThenMvhBuildsAnyByte := by
  intro s x K
  obtain ⟨t, et, ht⟩ := commitUnder_plain s x (immByte (K.extractLsb' 0 6))
  obtain ⟨u, eu, hu⟩ := commitUnder_aluMvh t x (immByte (0b0000#4 ++ K.extractLsb' 6 2)) (srC t.sr)
  have hread : t.readD x = immByte (K.extractLsb' 0 6) := ht.1
  rw [hread, mvh_of_mov_parts] at hu
  exact ⟨t, u, et, eu, ht.trans hu⟩

/-! ## `nop` (R92) -/

/-- Settles O37: 0x3055 is the word of `nop`, which keeps the state that the fetch has left. -/
theorem nopOnlyAdvancesPc : Obligations.NopOnlyAdvancesPc := by
  have hw : 0x3055#16 = encode .nop := by decide
  refine ⟨by rw [hw, decodeWord_encode rfl], execNop_eq, fun s h => ?_⟩
  rw [step_of_wordAtPc_eq_encode (h.trans hw) rfl, nextPc]
  exact execNop_eq _

end Sys2Proof.Machine
end

section
/-! PROOFS. Control: the conditions as relations after `cmp` (R79, R96), and the ten transfers of format C, taken and
not taken (R93 to R108). -/

namespace Sys2Proof.Machine

variable {s t : State} {x : DReg}

/-! ## The conditions as functions of the status byte (R57, R96) -/

/-- Settles O42: each condition is written in the flags, which are those bits. -/
theorem conditionsReadTheFlagBits : Obligations.ConditionsReadTheFlagBits :=
  fun _ => ⟨rfl, rfl, rfl, rfl, rfl, rfl, rfl, rfl⟩

/-- Under either reading `g` is `ge` with flag z clear (R96, D31; log 10). -/
theorem condUnder_g (reading : SignedCondReading) (sr : Byte) :
    condUnder reading .g sr = (condUnder reading .ge sr && !srZ sr) := by
  cases reading <;> rfl

/-- The printed formula of `ge` agrees with its name as long as v is clear (R96, C6). -/
theorem condHolds_ge_of_srV_false {sr : Byte} (h : srV sr = false) :
    condHolds .ge sr = condUnder .name .ge sr := by
  simp [condHolds, Params.signedCondReading, condUnder, h]

theorem condHolds_ge_of_srV {sr : Byte} (h : srV sr = true) : condHolds .ge sr = srC sr := if_pos h

/-! ## The conditions after a compare (R79, R96) -/

section Difference

variable {b : Byte} (h : DifferenceFlags x b 0 s t)
include h

theorem DifferenceFlags.srC_iff : srC t.sr = true ↔ b.toNat ≤ (s.readD x).toNat := h.1

/-- A difference of bytes is zero modulo 256 only for equal bytes. -/
theorem DifferenceFlags.srZ_iff : srZ t.sr = true ↔ s.readD x = b := by
  obtain ⟨-, -, ⟨-, hz⟩, -⟩ := h
  have := b.isLt
  have := (s.readD x).isLt
  rw [hz, ← BitVec.toNat_inj, BitVec.toNat_ofNat]
  omega

/-- Flag c says that no borrow occurred and flag z that the operands are equal (R96). -/
theorem DifferenceFlags.unsignedConditions : UnsignedConditions (s.readD x) b t := by
  have hgu : condHolds .gu t.sr = (srC t.sr && !srZ t.sr) := rfl
  refine ⟨h.srC_iff, h.srZ_iff, ?_⟩
  rw [hgu, Bool.and_eq_true, Bool.not_eq_true', ← Bool.not_eq_true, h.srC_iff, h.srZ_iff,
    ← BitVec.toNat_inj]
  omega

/-- The sign of the difference, corrected for overflow, is the signed relation (R96, D10; log 16). -/
theorem DifferenceFlags.ge_name_iff : condUnder .name .ge t.sr = true ↔ b.toInt ≤ (s.readD x).toInt := by
  obtain ⟨-, hv, ⟨hn, -⟩, -⟩ := h
  have := b.isLt
  have := (s.readD x).isLt
  have := BitVec.toInt_eq_toNat_cond b
  have := BitVec.toInt_eq_toNat_cond (s.readD x)
  rw [condUnder, beq_iff_eq, Bool.eq_iff_iff, hn, hv, OutsideSignedByte, BitVec.toNat_ofNat]
  omega

theorem DifferenceFlags.outside_of_srV (hset : srV t.sr = true) :
    OutsideSignedByte ((s.readD x).toInt - b.toInt) := by
  obtain ⟨-, hv, -⟩ := h
  simpa using hv.mp hset

/-- On overflow the operands have different signs, so the unsigned relation is the opposite of the signed one (C6). -/
theorem DifferenceFlags.srC_iff_of_srV (hset : srV t.sr = true) :
    srC t.sr = true ↔ ¬ b.toInt ≤ (s.readD x).toInt := by
  have houtside := h.outside_of_srV hset
  have := b.isLt
  have := (s.readD x).isLt
  have := BitVec.toInt_eq_toNat_cond b
  have := BitVec.toInt_eq_toNat_cond (s.readD x)
  rw [OutsideSignedByte] at houtside
  rw [h.srC_iff]
  omega

/-- Under either reading, `g` is the condition `ge` for unequal operands (R96). -/
theorem DifferenceFlags.g_iff (reading : SignedCondReading) :
    condUnder reading .g t.sr = true ↔
      condUnder reading .ge t.sr = true ∧ (s.readD x).toInt ≠ b.toInt := by
  rw [condUnder_g, Bool.and_eq_true, Bool.not_eq_true', ← Bool.not_eq_true, h.srZ_iff, ← BitVec.toInt_inj]

/-- With v clear the formula of `ge` is the reading by name; with v set it is flag c (R96, D31; log 10). -/
theorem DifferenceFlags.signedConditions : SignedConditions (s.readD x) b t := by
  have hg : condHolds .g t.sr = true ↔ condHolds .ge t.sr = true ∧ (s.readD x).toInt ≠ b.toInt :=
    h.g_iff Params.signedCondReading
  refine ⟨fun hclear => ?_, fun hset => ?_, h.ge_name_iff, ?_⟩
  · rw [hg, condHolds_ge_of_srV_false hclear, h.ge_name_iff]
    omega
  · have houtside := h.outside_of_srV hset
    rw [OutsideSignedByte] at houtside
    rw [hg, condHolds_ge_of_srV hset, h.srC_iff_of_srV hset]
    omega
  · rw [h.g_iff, h.ge_name_iff]
    omega

end Difference

/-- `cmp` with either kind of operand 2 leaves the flags of the difference (R79). -/
theorem differenceFlags_of_commitUnder_aluCmp {b : Byte} {c : Bool}
    (h : commitUnder Params.srDest x (aluCmp (s.readD x) b c) s = .next t) : DifferenceFlags x b 0 s t := by
  cases h.symm.trans (commitUnder_flags s Params.srDest x _)
  exact differenceFlags_of_sr b true rfl

/-- Settles O40: after `cmp`, flag c says no borrow and flag z says equal. -/
theorem unsignedConditionsAfterCmp : Obligations.UnsignedConditionsAfterCmp :=
  ⟨fun s _ _ y h => (differenceFlags_of_commitUnder_aluCmp (b := s.readD y) h).unsignedConditions,
    fun _ _ _ imm h => (differenceFlags_of_commitUnder_aluCmp (b := immByte imm) h).unsignedConditions⟩

/-- Settles O41: the printed formula is right without overflow and the opposite with it; n = v is always right. -/
theorem signedConditionsAfterCmp : Obligations.SignedConditionsAfterCmp :=
  ⟨fun s _ _ y h => (differenceFlags_of_commitUnder_aluCmp (b := s.readD y) h).signedConditions,
    fun _ _ _ imm h => (differenceFlags_of_commitUnder_aluCmp (b := immByte imm) h).signedConditions⟩

/-! ## What format C answers, taken and not taken (R93, R95) -/

section Taken

variable {neg : Bool} {cc : Cond}

theorem runControl_of_taken (h : Bool.xor (condHolds cc s.sr) neg = true) (save : Bool) (base : CBase)
    (imm : Imm6) :
    runControl save base neg cc imm s = .next ((link save s).setPc (controlTarget base imm s)) := by
  rw [runControl_eq, taken, if_pos h]

/-- A call that is not taken writes no link either (D13; log 8). -/
theorem runControl_of_not_taken (h : Bool.xor (condHolds cc s.sr) neg = false) (save : Bool) (base : CBase)
    (imm : Imm6) : runControl save base neg cc imm s = .next s := by
  rw [runControl_eq, taken, h, if_neg Bool.false_ne_true]

/-- A jump that is taken writes `pc` only. -/
theorem runControl_jumpResult (h : Bool.xor (condHolds cc s.sr) neg = true) (base : CBase) (imm : Imm6) :
    ∃ t, runControl false base neg cc imm s = .next t ∧
      JumpResult (controlBase base s + 2 * imm.toInt) s t := by
  obtain ⟨htarget, -⟩ := controlTargetIsWrappedSum base imm s
  exact ⟨_, runControl_of_taken h false base imm, htarget, fun k _ => State.readD_setPc s k _, fun _ => rfl⟩

/-- A call that is taken writes `ra` and `pc`; its target is that of the state before the link (R97, D14; log 18). -/
theorem runControl_callResult (h : Bool.xor (condHolds cc s.sr) neg = true) (base : CBase) (imm : Imm6) :
    ∃ t, runControl true base neg cc imm s = .next t ∧
      CallResult (controlBase base s + 2 * imm.toInt) s t := by
  obtain ⟨htarget, -⟩ := controlTargetIsWrappedSum base imm s
  refine ⟨_, runControl_of_taken h true base imm, rfl, htarget, fun k hk => ?_, fun _ => rfl⟩
  simp only [List.mem_cons, List.not_mem_nil, or_false, not_or] at hk
  rw [State.readD_setPc, State.readD_link_of_ne fun _ => hk]

end Taken

/-! ## The jumps (R98 to R101) -/

/-- Settles O43: `jmp_` is the jump with a register base. -/
theorem jumpRegisterSetsPc : Obligations.JumpRegisterSetsPc :=
  ⟨fun r => decodeWord_jump (.reg r), fun _ r _ _ imm h => runControl_jumpResult h (.reg r) imm,
    fun _ r _ _ imm h => runControl_of_not_taken h false (.reg r) imm⟩

/-- Settles O44: `jmpr_` is the jump with base `pc`. -/
theorem jumpRelativeSetsPc : Obligations.JumpRelativeSetsPc :=
  ⟨decodeWord_jump .pc, fun _ _ _ imm h => runControl_jumpResult h .pc imm,
    fun _ _ _ imm h => runControl_of_not_taken h false .pc imm⟩

/-- Settles O45: `jmpbl_` and `jmpbh_` are the jumps with the fixed bases. -/
theorem jumpBootloaderSetsPc : Obligations.JumpBootloaderSetsPc :=
  ⟨decodeWord_jump .bl, fun _ _ _ imm h => runControl_jumpResult h .bl imm,
    fun _ _ _ imm h => runControl_of_not_taken h false .bl imm,
    decodeWord_jump .bh, fun _ _ _ imm h => runControl_jumpResult h .bh imm,
    fun _ _ _ imm h => runControl_of_not_taken h false .bh imm⟩

/-! ## The calls (R95, R102 to R105, R107) -/

/-- Settles O46: `call_` is the call with a register base. -/
theorem callRegisterLinksAndSetsPc : Obligations.CallRegisterLinksAndSetsPc :=
  ⟨fun r => decodeWord_call (.reg r), fun _ r _ _ imm h => runControl_callResult h (.reg r) imm⟩

/-- Settles O47: `callr_` is the call with base `pc`. -/
theorem callRelativeLinksAndSetsPc : Obligations.CallRelativeLinksAndSetsPc :=
  ⟨decodeWord_call .pc, fun _ _ _ imm h => runControl_callResult h .pc imm⟩

/-- Settles O48: `clbl_` and `clbh_` are the calls with the fixed bases. -/
theorem callBootloaderLinksAndSetsPc : Obligations.CallBootloaderLinksAndSetsPc :=
  ⟨decodeWord_call .bl, fun _ _ _ imm h => runControl_callResult h .bl imm,
    decodeWord_call .bh, fun _ _ _ imm h => runControl_callResult h .bh imm⟩

/-- Settles O50: `clret_` is the call with base `ra`, read before the link write. -/
theorem clretExchangesPcAndRa : Obligations.ClretExchangesPcAndRa :=
  ⟨decodeWord_call .ra, fun _ _ _ imm h => runControl_callResult h .ra imm⟩

/-- Settles O51: a transfer that is not taken answers the same state for any base, and the inversion of condition 111
is never taken. -/
theorem callNotTakenWritesNothing : Obligations.CallNotTakenWritesNothing := by
  refine ⟨fun s r neg cc imm h => ?_, fun s r imm => ?_⟩
  · have call (base : CBase) : runControl true base neg cc imm s = .next s :=
      runControl_of_not_taken h true base imm
    exact ⟨call (.reg r), call .pc, call .bl, call .bh, call .ra⟩
  · have never (save : Bool) (base : CBase) : runControl save base true .always imm s = .next s :=
      runControl_of_not_taken rfl save base imm
    exact ⟨never false (.reg r), never false .pc, never false .bl, never false .bh, never false .ra,
      never true (.reg r), never true .pc, never true .bl, never true .bh, never true .ra⟩

end Sys2Proof.Machine
end

section
/-! PROOFS. Loads and stores: what format M does through any base, and its named forms through `sp` and `fp` (rules
R38, R109, R110, R112 to R116). -/

namespace Sys2Proof.Machine

/-! ## What format M does through any base (R110, R114) -/

/-- A load writes one register (R110). -/
theorem runLoad_loadResult (base : MBase) (s : State) (x : DReg) (imm : Imm6) :
    ∃ t, runLoad base x imm s = .next t ∧ LoadResult x (dataAddr base imm s) s t :=
  ⟨_, runLoad_eq s base x imm, plainResult_writeD s x _⟩

/-- A byte written to memory changes that byte only (R32). -/
theorem storeResult_writeByte (s : State) (x : DReg) (a : Word) :
    StoreResult x a s (s.writeByte a (s.readD x)) :=
  ⟨State.readByte_writeByte_self s a _, fun _ hb => State.readByte_writeByte_of_ne s hb _,
    fun k _ => State.readD_writeByte s k a _, State.pc_writeByte s a _⟩

/-- A store writes one memory byte (R114). -/
theorem runStore_storeResult (base : MBase) (s : State) (x : DReg) (imm : Imm6) :
    ∃ t, runStore base x imm s = .next t ∧ StoreResult x (dataAddr base imm s) s t :=
  ⟨_, runStore_eq s base x imm, storeResult_writeByte s x _⟩

/-- Settles O52: each base has one reading, and `ld` is the load through it. -/
theorem loadPutsByteInRegister : Obligations.LoadPutsByteInRegister :=
  ⟨decodeWord_load, fun s base x imm => runLoad_loadResult base s x imm⟩

/-- Settles O55: each base has one reading, and `st` is the store through it. -/
theorem storePutsRegisterInMemory : Obligations.StorePutsRegisterInMemory :=
  ⟨decodeWord_store, fun s base x imm => runStore_storeResult base s x imm⟩

/-! ## Through `sp` and `fp`, not confined to the stack page (R112, R113, R115, R116) -/

/-- The data address is the integer sum of base and immediate, taken modulo 65,536 (R38). -/
theorem dataAddr_eq_ofInt (base : MBase) (imm : Imm6) (s : State) :
    dataAddr base imm s = BitVec.ofInt 16 (dataBase base s + imm.toInt) := by
  apply BitVec.eq_of_toNat_eq
  have hsum := dataAddressIsWrappedSum base imm s
  rw [BitVec.toNat_ofInt]
  omega

/-- A load, with its address as an integer sum (R38, R110). -/
theorem runLoad_loadResult_ofInt (base : MBase) (s : State) (x : DReg) (imm : Imm6) :
    ∃ t, runLoad base x imm s = .next t ∧
      LoadResult x (BitVec.ofInt 16 (dataBase base s + imm.toInt)) s t :=
  dataAddr_eq_ofInt base imm s ▸ runLoad_loadResult base s x imm

/-- A store, with its address as an integer sum (R38, R114). -/
theorem runStore_storeResult_ofInt (base : MBase) (s : State) (x : DReg) (imm : Imm6) :
    ∃ t, runStore base x imm s = .next t ∧
      StoreResult x (BitVec.ofInt 16 (dataBase base s + imm.toInt)) s t :=
  dataAddr_eq_ofInt base imm s ▸ runStore_storeResult base s x imm

/-- Settles O54: `lds` and `ldf` are the loads with bases `sp` and `fp`. -/
theorem stackAndFrameLoads : Obligations.StackAndFrameLoads :=
  ⟨decodeWord_load .sp, decodeWord_load .fp, runLoad_loadResult_ofInt .sp, runLoad_loadResult_ofInt .fp⟩

/-- Settles O56: `sts` and `stf` are the stores with bases `sp` and `fp`. -/
theorem stackAndFrameStores : Obligations.StackAndFrameStores :=
  ⟨decodeWord_store .sp, decodeWord_store .fp, runStore_storeResult_ofInt .sp,
    runStore_storeResult_ofInt .fp⟩

end Sys2Proof.Machine
end

section
/-! PROOFS. SR_DEST_ORDER = refuse (rules R24, R74, R121; log 6). -/

namespace Sys2Proof.Machine

/-- Unless a result and flags both go into `sr`, the end of an operation is its commit, whatever the setting
(R24, R70, R74). -/
theorem commitUnder_eq_commit {x : DReg} {out : AluOut} (h : x ≠ .sr ∨ ∀ r f, out ≠ .both r f)
    (setting : SrDestSetting) (s : State) : commitUnder setting x out s = .next (s.commit x out) := by
  cases out with
  | result r => exact commitUnder_result s setting x r
  | flags f => exact commitUnder_flags s setting x f
  | both r f =>
    have hx : x ≠ .sr := h.resolve_right fun hout => hout r f rfl
    exact commitUnder_both_of_ne s setting hx r f

/-- Settles O60: a result and flags into `sr` are refused, and every other end is the commit under any setting. -/
theorem statusDestinationRefusedUnderRefuse : Obligations.StatusDestinationRefusedUnderRefuse :=
  ⟨statusUnder_refuse,
    fun s x out order h => ⟨s.commit x out, commitUnder_eq_commit h .refuse s,
      commitUnder_eq_commit h (.run order) s⟩⟩

end Sys2Proof.Machine
end

section
/-! PROOFS. The words the spec writes out (R59), the return through `ra` (R106), the load beside the code (R111), and
where a run starts (R29, R128; D23). -/

namespace Sys2Proof.Machine

/-- Settles O5, by evaluation: the words are closed, and the decoder reads each from its fields. -/
theorem specExampleWordsDecode : Obligations.SpecExampleWordsDecode := by
  unfold Obligations.SpecExampleWordsDecode
  decide

/-- Settles O49: `ret_` is the jump with base `ra`, which writes no link. -/
theorem returnJumpsThroughRa : Obligations.ReturnJumpsThroughRa :=
  ⟨decodeWord_jump .ra, fun _ _ _ imm h => runControl_jumpResult h .ra imm,
    fun _ _ _ imm h => runControl_of_not_taken h false .ra imm⟩

/-- Settles O53: `ldr` is the load with base `pc`, which the fetch has already advanced (D15; log 17). -/
theorem loadRelativeReadsBesideTheCode : Obligations.LoadRelativeReadsBesideTheCode :=
  ⟨decodeWord_load .pc, runLoad_loadResult .pc⟩

/-- Settles O9, by evaluation: RESET_PC is even, and a memory that lists nothing is canonical (log 2, log 4). -/
theorem resetMeetsInvariant : Obligations.ResetMeetsInvariant :=
  have hpc : State.reset.pcEven := rfl
  have hmem : State.reset.memWf := rfl
  ⟨⟨hpc, hmem⟩, rfl⟩

/-- Bit 0 of an address is its parity. -/
theorem getLsbD_zero_eq_decide_odd (a : Word) : a.getLsbD 0 = decide (a.toNat % 2 = 1) := by
  rw [← BitVec.testBit_toNat, Nat.testBit_zero]

/-- What a launch answers, by the parity of its `pc` (D23; log 20). -/
theorem launch_eq (s : State) :
    launch s = if s.pc.toNat % 2 = 1 then .refused (.oddResetPc s.pc) else .next s := by
  simp only [launch, getLsbD_zero_eq_decide_odd, decide_eq_true_eq]

/-- Settles O58: the launch looks at the parity of `pc` only. -/
theorem launchRefusesOddPc : Obligations.LaunchRefusesOddPc := by
  refine fun s => ⟨fun heven => ?_, fun hodd => ?_⟩
  · rw [launch_eq, if_neg (by omega)]
  · rw [launch_eq, if_pos hodd]

end Sys2Proof.Machine
end
